-- ==== Sys2Proof/Word.lean ====
section
/-! DEFINITION. Word.lean: the bit-vector types of the core (spec 00 R7, R9, R10, R17). -/

namespace Sys2Proof

/-- An 8-bit value: a general register, a timer, a memory cell, the field kk. -/
abbrev Byte := BitVec 8

/-- A 16-bit value: I, PC, SP, a stack entry, an instruction word. -/
abbrev Word := BitVec 16

/-- A register number: the field x or y, or a key number 0..15. -/
abbrev Nibble := BitVec 4

/-- The 12-bit address field nnn. -/
abbrev Addr12 := BitVec 12

end Sys2Proof
end

