-- ==== Sys2Proof/Syntax.lean ====
section
/-! DEFINITION. Syntax.lean: the 33 instructions of spec/opcode_table.json, one constructor a row, in the
table's order. The shifts carry no y: the field has no effect and all its values are one instruction (30 R87). -/

namespace Sys2Proof

/-- The instruction set (00 R2, 30 R86). -/
inductive Instr where
  /-- 00E0 CLS (44 R203). -/
  | cls
  /-- 00EE RET (40 R101). -/
  | ret
  /-- 1nnn JP nnn (40 R102). -/
  | jp (nnn : Addr12)
  /-- 2nnn CALL nnn (40 R103). -/
  | call (nnn : Addr12)
  /-- 3xkk SE Vx, kk (40 R104). -/
  | seImm (x : Nibble) (kk : Byte)
  /-- 4xkk SNE Vx, kk (40 R105). -/
  | sneImm (x : Nibble) (kk : Byte)
  /-- 5xy0 SE Vx, Vy (40 R106). -/
  | seReg (x y : Nibble)
  /-- 6xkk LD Vx, kk (41 R131). -/
  | ldImm (x : Nibble) (kk : Byte)
  /-- 7xkk ADD Vx, kk (41 R132). -/
  | addImm (x : Nibble) (kk : Byte)
  /-- 8xy0 LD Vx, Vy (41 R133). -/
  | ldReg (x y : Nibble)
  /-- 8xy1 OR Vx, Vy (41 R134). -/
  | orReg (x y : Nibble)
  /-- 8xy2 AND Vx, Vy (41 R135). -/
  | andReg (x y : Nibble)
  /-- 8xy3 XOR Vx, Vy (41 R136). -/
  | xorReg (x y : Nibble)
  /-- 8xy4 ADD Vx, Vy (41 R138). -/
  | addReg (x y : Nibble)
  /-- 8xy5 SUB Vx, Vy (41 R139). -/
  | subReg (x y : Nibble)
  /-- 8xy6 SHR Vx (41 R140). -/
  | shr (x : Nibble)
  /-- 8xy7 SUBN Vx, Vy (41 R141). -/
  | subnReg (x y : Nibble)
  /-- 8xyE SHL Vx (41 R142). -/
  | shl (x : Nibble)
  /-- 9xy0 SNE Vx, Vy (40 R107). -/
  | sneReg (x y : Nibble)
  /-- Annn LD I, nnn (42 R160). -/
  | ldI (nnn : Addr12)
  /-- Bnnn JP V0, nnn (40 R108). -/
  | jpV0 (nnn : Addr12)
  /-- Cxkk RND Vx, kk (41 R143). -/
  | rnd (x : Nibble) (kk : Byte)
  /-- Dxyn DRW Vx, Vy, n (44 R202). -/
  | drw (x y n : Nibble)
  /-- Ex9E SKP Vx (44 R204). -/
  | skp (x : Nibble)
  /-- ExA1 SKNP Vx (44 R205). -/
  | sknp (x : Nibble)
  /-- Fx07 LD Vx, DT (43 R180). -/
  | ldVxDt (x : Nibble)
  /-- Fx0A LD Vx, K (44 R206). -/
  | ldVxK (x : Nibble)
  /-- Fx15 LD DT, Vx (43 R181). -/
  | ldDtVx (x : Nibble)
  /-- Fx18 LD ST, Vx (43 R182). -/
  | ldStVx (x : Nibble)
  /-- Fx29 LD F, Vx (42 R161). -/
  | ldFVx (x : Nibble)
  /-- Fx33 LD B, Vx (42 R162). -/
  | ldBVx (x : Nibble)
  /-- Fx55 LD [I], Vx (42 R163). -/
  | ldMemVx (x : Nibble)
  /-- Fx65 LD Vx, [I] (42 R164). -/
  | ldVxMem (x : Nibble)
deriving DecidableEq, Repr

end Sys2Proof
end

