-- ==== Sys2Proof/Decode.lean ====
section
/-! DEFINITION. Decode.lean: the fields of a word (spec 30 R83), decoding (R86), encoding (R84) and the opcode
table as mask and match values. -/

namespace Sys2Proof

/-- The opcode family, w[15:12]. -/
def fieldOp (w : Word) : Nibble := w.extractLsb' 12 4

/-- w[11:8]. -/
def fieldX (w : Word) : Nibble := w.extractLsb' 8 4

/-- w[7:4]. -/
def fieldY (w : Word) : Nibble := w.extractLsb' 4 4

/-- w[3:0]. -/
def fieldN (w : Word) : Nibble := w.extractLsb' 0 4

/-- w[7:0]. -/
def fieldKk (w : Word) : Byte := w.extractLsb' 0 8

/-- w[11:0]. -/
def fieldNnn (w : Word) : Addr12 := w.extractLsb' 0 12

/-- Why the decoder gives no instruction. -/
inductive Reject where
  /-- The word matches no pattern (30 R86, R88). -/
  | unknown (w : Word)
  /-- Fewer than the two bytes of an instruction (30 R82). -/
  | truncated
deriving DecidableEq, Repr

/-- An instruction or the reason there is none. -/
inductive Decoded where
  | instr (i : Instr)
  | rejected (r : Reject)
deriving DecidableEq, Repr

/-- Family 0: only 00E0 and 00EE (30 R86, R89). -/
def decodeOp0 (w : Word) : Decoded :=
  if w = 0x00E0#16 then .instr .cls
  else if w = 0x00EE#16 then .instr .ret
  else .rejected (.unknown w)

/-- Families 5 and 9: n must be 0 (30 R86). -/
def decodeN0 (i : Instr) (w : Word) : Decoded :=
  if fieldN w = 0x0#4 then .instr i else .rejected (.unknown w)

/-- Family 8, by the function nibble (30 R86, R87). -/
def decodeOp8 (w : Word) : Decoded :=
  match fieldN w with
  | 0x0#4 => .instr (.ldReg (fieldX w) (fieldY w))
  | 0x1#4 => .instr (.orReg (fieldX w) (fieldY w))
  | 0x2#4 => .instr (.andReg (fieldX w) (fieldY w))
  | 0x3#4 => .instr (.xorReg (fieldX w) (fieldY w))
  | 0x4#4 => .instr (.addReg (fieldX w) (fieldY w))
  | 0x5#4 => .instr (.subReg (fieldX w) (fieldY w))
  | 0x6#4 => .instr (.shr (fieldX w))
  | 0x7#4 => .instr (.subnReg (fieldX w) (fieldY w))
  | 0xE#4 => .instr (.shl (fieldX w))
  | _ => .rejected (.unknown w)

/-- Family E, by the function byte (30 R86). -/
def decodeOpE (w : Word) : Decoded :=
  match fieldKk w with
  | 0x9E#8 => .instr (.skp (fieldX w))
  | 0xA1#8 => .instr (.sknp (fieldX w))
  | _ => .rejected (.unknown w)

/-- Family F, by the function byte (30 R86, R89). -/
def decodeOpF (w : Word) : Decoded :=
  match fieldKk w with
  | 0x07#8 => .instr (.ldVxDt (fieldX w))
  | 0x0A#8 => .instr (.ldVxK (fieldX w))
  | 0x15#8 => .instr (.ldDtVx (fieldX w))
  | 0x18#8 => .instr (.ldStVx (fieldX w))
  | 0x29#8 => .instr (.ldFVx (fieldX w))
  | 0x33#8 => .instr (.ldBVx (fieldX w))
  | 0x55#8 => .instr (.ldMemVx (fieldX w))
  | 0x65#8 => .instr (.ldVxMem (fieldX w))
  | _ => .rejected (.unknown w)

/-- Decoding of a word, total on all 65536 (30 R86). -/
def decodeWord (w : Word) : Decoded :=
  match fieldOp w with
  | 0x0#4 => decodeOp0 w
  | 0x1#4 => .instr (.jp (fieldNnn w))
  | 0x2#4 => .instr (.call (fieldNnn w))
  | 0x3#4 => .instr (.seImm (fieldX w) (fieldKk w))
  | 0x4#4 => .instr (.sneImm (fieldX w) (fieldKk w))
  | 0x5#4 => decodeN0 (.seReg (fieldX w) (fieldY w)) w
  | 0x6#4 => .instr (.ldImm (fieldX w) (fieldKk w))
  | 0x7#4 => .instr (.addImm (fieldX w) (fieldKk w))
  | 0x8#4 => decodeOp8 w
  | 0x9#4 => decodeN0 (.sneReg (fieldX w) (fieldY w)) w
  | 0xA#4 => .instr (.ldI (fieldNnn w))
  | 0xB#4 => .instr (.jpV0 (fieldNnn w))
  | 0xC#4 => .instr (.rnd (fieldX w) (fieldKk w))
  | 0xD#4 => .instr (.drw (fieldX w) (fieldY w) (fieldN w))
  | 0xE#4 => decodeOpE w
  | _ => decodeOpF w

/-- The byte at the lower address is bits 15..8 (20 R56, 30 R81). -/
def composeWord (high low : Byte) : Word := high ++ low

/-- Decoding of bytes: the first two are the instruction, the rest is given back (30 R82). -/
def decodeBytes : List Byte → Decoded × List Byte
  | high :: low :: rest => (decodeWord (composeWord high low), rest)
  | bytes => (.rejected .truncated, bytes)

/-- FXK: register and immediate (30 R84). -/
def encodeXK (op x : Nibble) (kk : Byte) : Word := op ++ x ++ kk

/-- FXY and FXYN: two registers and the fourth nibble (30 R84). -/
def encodeXYN (op x y n : Nibble) : Word := op ++ x ++ y ++ n

/-- FA: address (30 R84). -/
def encodeA (op : Nibble) (nnn : Addr12) : Word := op ++ nnn

/-- The word of an instruction (30 R84, R86). SHR and SHL take y = 0 (log 19). -/
def encode : Instr → Word
  | .cls => 0x00E0#16
  | .ret => 0x00EE#16
  | .jp nnn => encodeA 0x1#4 nnn
  | .call nnn => encodeA 0x2#4 nnn
  | .seImm x kk => encodeXK 0x3#4 x kk
  | .sneImm x kk => encodeXK 0x4#4 x kk
  | .seReg x y => encodeXYN 0x5#4 x y 0x0#4
  | .ldImm x kk => encodeXK 0x6#4 x kk
  | .addImm x kk => encodeXK 0x7#4 x kk
  | .ldReg x y => encodeXYN 0x8#4 x y 0x0#4
  | .orReg x y => encodeXYN 0x8#4 x y 0x1#4
  | .andReg x y => encodeXYN 0x8#4 x y 0x2#4
  | .xorReg x y => encodeXYN 0x8#4 x y 0x3#4
  | .addReg x y => encodeXYN 0x8#4 x y 0x4#4
  | .subReg x y => encodeXYN 0x8#4 x y 0x5#4
  | .shr x => encodeXYN 0x8#4 x 0x0#4 0x6#4
  | .subnReg x y => encodeXYN 0x8#4 x y 0x7#4
  | .shl x => encodeXYN 0x8#4 x 0x0#4 0xE#4
  | .sneReg x y => encodeXYN 0x9#4 x y 0x0#4
  | .ldI nnn => encodeA 0xA#4 nnn
  | .jpV0 nnn => encodeA 0xB#4 nnn
  | .rnd x kk => encodeXK 0xC#4 x kk
  | .drw x y n => encodeXYN 0xD#4 x y n
  | .skp x => encodeXK 0xE#4 x 0x9E#8
  | .sknp x => encodeXK 0xE#4 x 0xA1#8
  | .ldVxDt x => encodeXK 0xF#4 x 0x07#8
  | .ldVxK x => encodeXK 0xF#4 x 0x0A#8
  | .ldDtVx x => encodeXK 0xF#4 x 0x15#8
  | .ldStVx x => encodeXK 0xF#4 x 0x18#8
  | .ldFVx x => encodeXK 0xF#4 x 0x29#8
  | .ldBVx x => encodeXK 0xF#4 x 0x33#8
  | .ldMemVx x => encodeXK 0xF#4 x 0x55#8
  | .ldVxMem x => encodeXK 0xF#4 x 0x65#8

/-- The two bytes of a word as memory holds them, the lower address first (20 R56). -/
def wordBytes (w : Word) : List Byte := [w.extractLsb' 8 8, w.extractLsb' 0 8]

/-- The bytes of an instruction. -/
def encodeBytes (i : Instr) : List Byte := wordBytes (encode i)

/-- An instruction's mask and match of spec/opcode_table.json: the bits its pattern fixes, and their values. -/
structure Pattern where
  mask : Word
  fixed : Word
deriving DecidableEq, Repr

/-- The word has the pattern's fixed bits (30 R86). -/
def Pattern.fits (p : Pattern) (w : Word) : Bool := w &&& p.mask == p.fixed

/-- spec/opcode_table.json, its match and mask values in its order: rows 00E0 to 8xy0. -/
def opcodeTableLow : List Pattern := [
  ⟨0xFFFF, 0x00E0⟩, ⟨0xFFFF, 0x00EE⟩, ⟨0xF000, 0x1000⟩, ⟨0xF000, 0x2000⟩, ⟨0xF000, 0x3000⟩, ⟨0xF000, 0x4000⟩,
  ⟨0xF00F, 0x5000⟩, ⟨0xF000, 0x6000⟩, ⟨0xF000, 0x7000⟩, ⟨0xF00F, 0x8000⟩]

/-- Rows 8xy1 to Annn. -/
def opcodeTableMid : List Pattern := [
  ⟨0xF00F, 0x8001⟩, ⟨0xF00F, 0x8002⟩, ⟨0xF00F, 0x8003⟩, ⟨0xF00F, 0x8004⟩, ⟨0xF00F, 0x8005⟩, ⟨0xF00F, 0x8006⟩,
  ⟨0xF00F, 0x8007⟩, ⟨0xF00F, 0x800E⟩, ⟨0xF00F, 0x9000⟩, ⟨0xF000, 0xA000⟩]

/-- Rows Bnnn to Fx65. -/
def opcodeTableHigh : List Pattern := [
  ⟨0xF000, 0xB000⟩, ⟨0xF000, 0xC000⟩, ⟨0xF000, 0xD000⟩, ⟨0xF0FF, 0xE09E⟩, ⟨0xF0FF, 0xE0A1⟩, ⟨0xF0FF, 0xF007⟩,
  ⟨0xF0FF, 0xF00A⟩, ⟨0xF0FF, 0xF015⟩, ⟨0xF0FF, 0xF018⟩, ⟨0xF0FF, 0xF029⟩, ⟨0xF0FF, 0xF033⟩, ⟨0xF0FF, 0xF055⟩,
  ⟨0xF0FF, 0xF065⟩]

/-- The opcode table, 33 rows. -/
def opcodeTable : List Pattern := opcodeTableLow ++ opcodeTableMid ++ opcodeTableHigh

/-- The row of the opcode table an instruction is written from, counted from 0. -/
def Instr.row : Instr → Nat
  | .cls => 0
  | .ret => 1
  | .jp _ => 2
  | .call _ => 3
  | .seImm _ _ => 4
  | .sneImm _ _ => 5
  | .seReg _ _ => 6
  | .ldImm _ _ => 7
  | .addImm _ _ => 8
  | .ldReg _ _ => 9
  | .orReg _ _ => 10
  | .andReg _ _ => 11
  | .xorReg _ _ => 12
  | .addReg _ _ => 13
  | .subReg _ _ => 14
  | .shr _ => 15
  | .subnReg _ _ => 16
  | .shl _ => 17
  | .sneReg _ _ => 18
  | .ldI _ => 19
  | .jpV0 _ => 20
  | .rnd _ _ => 21
  | .drw _ _ _ => 22
  | .skp _ => 23
  | .sknp _ => 24
  | .ldVxDt _ => 25
  | .ldVxK _ => 26
  | .ldDtVx _ => 27
  | .ldStVx _ => 28
  | .ldFVx _ => 29
  | .ldBVx _ => 30
  | .ldMemVx _ => 31
  | .ldVxMem _ => 32

/-- The pattern of an instruction's row. -/
def Instr.pattern (i : Instr) : Pattern := opcodeTable.getD i.row ⟨0, 0⟩

/-- The first word of bits numbered as the opcode table numbers them, every bit from nbits on being 0. -/
def tableWord (nbits w : Nat) : Word := BitVec.ofNat 16 (w % 2 ^ nbits)

/-- The instruction this decoder reads from the bits w, laid out in memory's byte order (20 R56). -/
def decodeTableWord (nbits w : Nat) : Option Instr :=
  match (decodeBytes (wordBytes (tableWord nbits w))).1 with
  | .instr i => some i
  | .rejected _ => none

end Sys2Proof
end

