-- ==== Sys2Proof/Config.lean ====
section
/-! DEFINITION. Config.lean: what a construction fixes (spec 00 R7) and the free values: port answers under
no law (00 R8) and the framebuffer a failed sink call leaves (92 D28). -/

namespace Sys2Proof

/-- What an Unknown word does (60 R233). -/
inductive UnknownPolicy where
  | report
  | silent
  | fatal
deriving DecidableEq, Repr, Inhabited

/-- The two displays 44 R201 and 00 R8 admit: the reference framebuffer, or an external sink whose collision
answer is a draw. -/
inductive SinkKind where
  | reference
  | external
deriving DecidableEq, Repr, Inhabited

/-- The construction parameters of 00 R7. `memInit` is MEM_INIT as cells over 0x00 (log 5). -/
structure Params where
  memSize  : Nat
  entry    : Word
  font     : Vector Byte 80
  memInit  : List (Nat × Byte)
  displayW : Nat
  displayH : Nat
  policy   : UnknownPolicy
  sink     : SinkKind
deriving DecidableEq, Repr

/-- GLYPH_SIZE of 00 R7: bytes of one font glyph. -/
def Config.glyphSize : Nat := 5

/-- FONT_BASE of 00 R7: the address of glyph 0. -/
def Config.fontBase : Nat := 0

/-- The conventional hexadecimal font, glyphs 0 to 7 (10 R44). -/
def Config.fontLow : Vector Byte 40 := #v[
  0xF0, 0x90, 0x90, 0x90, 0xF0,
  0x20, 0x60, 0x20, 0x20, 0x70,
  0xF0, 0x10, 0xF0, 0x80, 0xF0,
  0xF0, 0x10, 0xF0, 0x10, 0xF0,
  0x90, 0x90, 0xF0, 0x10, 0x10,
  0xF0, 0x80, 0xF0, 0x10, 0xF0,
  0xF0, 0x80, 0xF0, 0x90, 0xF0,
  0xF0, 0x10, 0x20, 0x40, 0x40]

/-- The conventional hexadecimal font, glyphs 8 to F (10 R44). -/
def Config.fontHigh : Vector Byte 40 := #v[
  0xF0, 0x90, 0xF0, 0x90, 0xF0,
  0xF0, 0x90, 0xF0, 0x10, 0xF0,
  0xF0, 0x90, 0xF0, 0x90, 0x90,
  0xE0, 0x90, 0xE0, 0x90, 0xE0,
  0xF0, 0x80, 0x80, 0x80, 0xF0,
  0xE0, 0x90, 0x90, 0x90, 0xE0,
  0xF0, 0x80, 0xF0, 0x80, 0xF0,
  0xF0, 0x80, 0xF0, 0x80, 0x80]

/-- The default parameters of 00 R7 (PRESUMED: the spec's defaults, log 3; the reference sink: log 9). -/
def Params.default : Params where
  memSize  := 0x1000
  entry    := 0x200
  font     := Config.fontLow ++ Config.fontHigh
  memInit  := []
  displayW := 64
  displayH := 32
  policy   := .report
  sink     := .reference

/-- One answer of the Display Sink to `clear` or `setSprite` (44 R200). `collision` is read only when the sink
is external and the call is `setSprite`. -/
inductive SinkAnswer where
  | done (collision : Bool)
  | backendError
deriving DecidableEq, Repr, Inhabited

/-- One answer of the Key Source to `isDown` (44 R207). -/
inductive KeyAnswer where
  | held (down : Bool)
  | backendError
deriving DecidableEq, Repr, Inhabited

/-- What the Key Source has said so far to an open `waitForKey` (44 R206, R207). -/
inductive WaitAnswer where
  | noKeyYet
  | pressed (key : Nibble)
  | backendError
deriving DecidableEq, Repr, Inhabited

/-- Free value: the Random Source's byte (41 R143, R144). Log 7. -/
opaque Config.freeRandom : Nat → Byte

/-- Free value: the Key Source's answer to `isDown` (44 R207). Log 7. -/
opaque Config.freeKeyDown : Nat → KeyAnswer

/-- Free value: the Key Source's answer to `waitForKey`, no answer yet among them (44 R206, R207). Log 7, 10. -/
opaque Config.freeKeyWait : Nat → WaitAnswer

/-- Free value: the Display Sink's answer (44 R200, 93 I-12, I-13). Log 7. -/
opaque Config.freeSink : Nat → SinkAnswer

/-- Free value: whether a pixel is set after a failed sink call (60 R236, 92 D28). Log 8. -/
opaque Config.freePixel : Nat → Nat → Bool

end Sys2Proof
end

