-- ==== Sys2Proof/Machine/State.lean ====
section
/-! DEFINITION. State.lean: the state of the core as plain data (spec 10 R20 to R37), the reasons a step can
stop, and the state after reset (10 R40, 70 R270). -/

namespace Sys2Proof.Machine

/-- The run state RUN (10 R33, R35). -/
inductive Run where
  | ready
  | waitKey
  | faulted
deriving DecidableEq, Repr

/-- The conditions the core raises (60 R231), but for code 0, which is no cause. -/
inductive Cause where
  | outOfBoundsFetch
  | outOfBoundsData
  | stackOverflow
  | stackUnderflow
  | unknownOpcode
  | backendError
  | keyOutOfRange
deriving DecidableEq, Repr

/-- The fault record FAULT_CAUSE, FAULT_ADDR, FAULT_OP, FAULT_INFO (10 R33, 60 R232). A cause of `none` is code
0, an op of `none` is 0x10000. The info of KeyOutOfRange is the key (DESIGN CHOICE, log 22). -/
structure FaultRecord where
  cause : Option Cause
  addr  : Word
  op    : Option Word
  info  : BitVec 17
deriving DecidableEq, Repr

/-- What the last `step()` call returned to the host (log 12). -/
inductive StepReturn where
  /-- No `step()` call since reset. -/
  | none
  /-- The call has not returned: an Fx0A waits (44 R206). -/
  | notYet
  /-- The step completed. -/
  | ok
  /-- The report UnknownOpcode(a, w) of 60 R233. -/
  | report (addr op : Word)
  /-- The fault record (60 R232, R237). -/
  | fault (r : FaultRecord)
deriving DecidableEq, Repr

/-- The answers the three ports will give, oldest first. When a list is empty the answer is a free value of
Config, and `draws` counts those (log 7). -/
structure Ports where
  random  : List Byte
  keyDown : List KeyAnswer
  keyWait : List WaitAnswer
  display : List SinkAnswer
  draws   : Nat
deriving DecidableEq, Repr

/-- Memory: the cells that differ from their reset content, addresses rising (Memory.wf in Ops.lean). -/
abbrev Memory := List Host.Cell

/-- The framebuffer: the set pixels, pixel (x, y) numbered y × DISPLAY_W + x, rising (10 R36). -/
abbrev Frame := List Nat

/-- The state of the machine. -/
structure State where
  /-- V0..VF (10 R21). -/
  v        : Vector Byte 16
  /-- I (10 R29). -/
  i        : Word
  /-- PC (10 R24). -/
  pc       : Word
  /-- SP (10 R30). -/
  sp       : Word
  /-- Stack[0..15] (10 R30). -/
  stack    : Vector Word 16
  /-- DT (10 R31). -/
  dt       : Byte
  /-- ST (10 R31). -/
  st       : Byte
  /-- Memory (10 R34). -/
  mem      : Memory
  /-- RUN (10 R35). -/
  run      : Run
  /-- WAIT_X (10 R33). -/
  waitX    : Nibble
  /-- WAIT_ADDR (10 R33). -/
  waitAddr : Word
  /-- FAULT_CAUSE, FAULT_ADDR, FAULT_OP, FAULT_INFO (10 R33). -/
  fault    : FaultRecord
  /-- UNK (10 R33). -/
  unk      : Bool
  /-- UNK_ADDR (10 R33). -/
  unkAddr  : Word
  /-- UNK_OP (10 R33). -/
  unkOp    : Word
  /-- FB (10 R36). -/
  fb       : Frame
  /-- The construction parameters (00 R7, log 2). -/
  params   : Params
  /-- The ports' coming answers (log 7). -/
  ports    : Ports
  /-- WAIT_X before the open Fx0A, for its undo (60 R236, log 11). -/
  undoX    : Nibble
  /-- WAIT_ADDR before the open Fx0A, for its undo (60 R236, log 11). -/
  undoAddr : Word
  /-- What the last `step()` call returned (log 12). -/
  ret      : StepReturn
deriving DecidableEq, Repr

/-- Why the machine stops. The spec's own faults are next states with RUN = Faulted (log 1), not these. -/
inductive Fault where
  /-- Raised by execRet when SP is above 16, where Stack[SP-1] does not exist (10 R30). No run reaches such a
  state. Safe: the model stops (log 13). -/
  | spOutOfRange
deriving DecidableEq, Repr

/-- Why there is no meaning. -/
inductive Refusal where
  /-- Raised by an arm of exec that has no meaning yet; no arm has it now. Safe: the model stops. -/
  | notModelled (mnemonic : String)
  /-- Raised by driverCall for a `step()` call while RUN = WaitKey, to which 60 R248 gives no meaning. Safe: the
  model has no such run (log 16). -/
  | stepDuringWait
  /-- Raised by driverCall for a load while RUN = WaitKey, to which 20 R62 gives no meaning. Safe (log 16). -/
  | loadDuringWait
  /-- Raised by driverCall for a Key Source answer no Fx0A waits for; the Key Source answers only when the core
  calls (60 R247). Safe (log 16). -/
  | noWaitOpen
deriving DecidableEq, Repr

/-- The result of a step, an instruction or a driver's call. -/
abbrev Result := Host.Outcome State Fault Refusal

/-- The fault record at reset (10 R33). -/
def FaultRecord.reset : FaultRecord where
  cause := none
  addr  := 0
  op    := none
  info  := 0

/-- No scripted answers: every answer is a free value (log 7). -/
def Ports.reset : Ports where
  random  := []
  keyDown := []
  keyWait := []
  display := []
  draws   := 0

/-- The state a construction with parameters p leaves (10 R40, 70 R270). -/
def State.construct (p : Params) : State where
  v        := Vector.replicate 16 0
  i        := 0
  pc       := p.entry
  sp       := 0
  stack    := Vector.replicate 16 0
  dt       := 0
  st       := 0
  mem      := []
  run      := .ready
  waitX    := 0
  waitAddr := 0
  fault    := FaultRecord.reset
  unk      := false
  unkAddr  := 0
  unkOp    := 0
  fb       := []
  params   := p
  ports    := Ports.reset
  undoX    := 0
  undoAddr := 0
  ret      := .none

/-- The machine right after reset, with the default parameters (10 R40, log 3). -/
def State.reset : State := State.construct Params.default

end Sys2Proof.Machine
end

