-- ==== Sys2Proof/Machine/Ops.lean ====
section
/-! DEFINITION. Ops.lean: the named operations over memory, registers, stack and ports, fetching, taking a fault
(the one shared operation, 60 R235), and the host's tick, load and reset. -/

namespace Sys2Proof.Machine

/-! Memory (20 R50 to R54). -/

/-- A list of cells read at an address, the given byte where none is listed. -/
def cellAt : List Host.Cell → Nat → Byte → Byte
  | [], _, d => d
  | (b, x) :: rest, a, d => if b = a then x else cellAt rest a d

/-- The reset content of an address: FONT in 0..79, MEM_INIT above (10 R40). It is what an address that memory
does not list reads as (log 5). -/
def resetByte (p : Params) (a : Nat) : Byte :=
  if h : a < 80 then p.font[a] else cellAt p.memInit a 0

/-- MemRead(a, 1) for a < N (00 R12, 20 R52). -/
def Memory.read (p : Params) (m : Memory) (a : Nat) : Byte := cellAt m a (resetByte p a)

/-- MemWrite(a, 1, b) for a < N (00 R12, 20 R52), keeping the canonical form. -/
def Memory.write (p : Params) (m : Memory) (a : Nat) (b : Byte) : Memory :=
  match m with
  | [] => if b = resetByte p a then [] else [(a, b)]
  | (c, x) :: rest =>
    if a < c then (if b = resetByte p a then (c, x) :: rest else (a, b) :: (c, x) :: rest)
    else if a = c then (if b = resetByte p a then rest else (a, b) :: rest)
    else (c, x) :: Memory.write p rest a b

/-- len bytes from base up (44 R202, 42 R164). -/
def Memory.readBytes (p : Params) (m : Memory) (base : Nat) : Nat → List Byte
  | 0 => []
  | len + 1 => Memory.read p m base :: Memory.readBytes p m (base + 1) len

/-- Bytes stored from base up, one MemWrite each (42 R162, R163; 20 R60). -/
def Memory.writeBytes (p : Params) (m : Memory) (base : Nat) : List Byte → Memory
  | [] => m
  | b :: rest => Memory.writeBytes p (Memory.write p m base b) (base + 1) rest

/-- The canonical form: addresses strictly rising, no entry equal to the reset content of its address. -/
def Memory.wf (p : Params) : Memory → Bool
  | [] => true
  | (a, b) :: rest =>
    decide (b ≠ resetByte p a) && rest.all (fun c => decide (a < c.1)) && Memory.wf p rest

/-- Every listed address is below N. -/
def Memory.bounded (p : Params) (m : Memory) : Bool := m.all (fun c => decide (c.1 < p.memSize))

/-- range_ok(base, len) of 42 R166 (20 R54): the lowest failing address, or none. Exact, no wrap. -/
def rangeFault (n base : Nat) : Nat → Option Nat
  | 0 => none
  | len + 1 => if n ≤ base then some base else rangeFault n (base + 1) len

/-- The byte the state's memory holds at an address. -/
def readByte (s : State) (a : Nat) : Byte := Memory.read s.params s.mem a

/-- len bytes of the state's memory from base up. -/
def loadBytes (s : State) (base len : Nat) : List Byte := Memory.readBytes s.params s.mem base len

/-- Bytes stored into the state's memory from base up. -/
def storeBytes (s : State) (base : Nat) (bs : List Byte) : State :=
  { s with mem := Memory.writeBytes s.params s.mem base bs }

/-! General registers (00 R11, 10 R21). -/

/-- V[x]. -/
def getV (s : State) (x : Nibble) : Byte := s.v[x.toNat]'x.isLt

/-- V[x] ← b. -/
def setV (x : Nibble) (b : Byte) (s : State) : State := { s with v := s.v.set x.toNat b x.isLt }

/-- V[k], V[k+1], … ← the bytes, up to V[15] (42 R164). -/
def setVs (s : State) (k : Nat) : List Byte → State
  | [] => s
  | b :: rest => setVs (setV (BitVec.ofNat 4 k) b s) (k + 1) rest

/-- V0..Vx, x + 1 bytes (42 R163). -/
def getVs (s : State) (x : Nibble) : List Byte :=
  (List.range (x.toNat + 1)).map (fun k => getV s (BitVec.ofNat 4 k))

/-! The program counter (10 R24, R25). -/

/-- Step 2 of the step contract: PC advances by 2 (30 R80), and the call is set to return ok unless the
instruction says otherwise (log 12). -/
def beginStep (s : State) : State := { s with pc := s.pc + 2, ret := .ok }

/-- skip() of 40 R100. -/
def skip (s : State) : State := { s with pc := s.pc + 2 }

/-- The skip taken when the condition holds. -/
def skipIf (c : Bool) (s : State) : State := if c then skip s else s

/-- PC ← target. -/
def jump (target : Word) (s : State) : State := { s with pc := target }

/-- The instruction's own address a in the execute phase, where PC is a + 2 (10 R24, log 15). -/
def instrAddr (s : State) : Word := s.pc - 2

/-! Taking a fault (60 R231 to R237). -/

/-- FAULT_CAUSE's code of 60 R231. -/
def causeCode : Option Cause → BitVec 4
  | none => 0
  | some .outOfBoundsFetch => 1
  | some .outOfBoundsData => 2
  | some .stackOverflow => 3
  | some .stackUnderflow => 4
  | some .unknownOpcode => 5
  | some .backendError => 6
  | some .keyOutOfRange => 7

/-- RUN's code of 10 R33. -/
def runCode : Run → BitVec 2
  | .ready => 0
  | .waitKey => 1
  | .faulted => 2

/-- FAULT_OP as 10 R33 writes it. -/
def faultOpCode : Option Word → BitVec 17
  | none => 0x10000
  | some w => w.setWidth 17

/-- Fault entry (60 R235) for the instruction at a with word op: the record is written (R232), PC holds a (R236),
RUN is Faulted, and the call returns the record. It is applied to the state before the instruction's writes, so
that only the PC advance is undone (R236). -/
def enterFault (c : Cause) (a : Word) (op : Option Word) (info : Nat) (s : State) : State :=
  { s with
    pc := a
    run := .faulted
    fault := { cause := some c, addr := a, op := op, info := BitVec.ofNat 17 info }
    ret := .fault { cause := some c, addr := a, op := op, info := BitVec.ofNat 17 info } }

/-- raise of 00 R13 in the execute phase of instruction i: FAULT_OP is the word of i (log 14). -/
def raise (c : Cause) (i : Instr) (info : Nat) (s : State) : State :=
  enterFault c (instrAddr s) (some (encode i)) info s

/-- A `step()` call in the Faulted state: the recorded fault is returned and nothing changes (60 R237). -/
def repeatFault (s : State) : State := { s with ret := .fault s.fault }

/-- unknown(a, w) of 60 R233, after the PC advance. -/
def unknownWord (w : Word) (s : State) : State :=
  match s.params.policy with
  | .report =>
    if s.unk then { s with ret := .report (instrAddr s) w }
    else { s with unk := true, unkAddr := instrAddr s, unkOp := w, ret := .report (instrAddr s) w }
  | .silent => s
  | .fatal => enterFault .unknownOpcode (instrAddr s) (some w) 0 s

/-! Fetching (30 R81). -/

/-- What the fetch at PC gives. -/
inductive Fetched where
  /-- OutOfBounds(info). -/
  | outOfBounds (info : Nat)
  | word (w : Word)
deriving DecidableEq, Repr

/-- fetch(a) of 30 R81 at a = PC, exact integers, big-endian (20 R56). -/
def fetch (s : State) : Fetched :=
  if s.params.memSize ≤ s.pc.toNat + 1 then
    .outOfBounds (if s.params.memSize ≤ s.pc.toNat then s.pc.toNat else s.pc.toNat + 1)
  else .word (composeWord (readByte s s.pc.toNat) (readByte s (s.pc.toNat + 1)))

/-- The fault of a failed fetch: PC was not advanced, FAULT_OP is none (30 R81, 60 R231 code 1). -/
def fetchFault (info : Nat) (s : State) : State := enterFault .outOfBoundsFetch s.pc none info s

/-! The return-address stack (10 R30). -/

/-- Stack[j], for j in 0..15. -/
def stackAt (s : State) (j : Nat) : Option Word := s.stack[j]?

/-- Stack[SP] ← w; SP ← SP + 1, for SP < 16 (40 R103). -/
def push (w : Word) (s : State) : State :=
  { s with stack := s.stack.setIfInBounds s.sp.toNat w, sp := s.sp + 1 }

/-! The ports' answers: the next scripted one, else a free value (00 R8, log 7). -/

/-- Random.next() (41 R144). -/
def takeRandom (s : State) : Byte × State :=
  match s.ports.random with
  | b :: rest => (b, { s with ports := { s.ports with random := rest } })
  | [] => (Config.freeRandom s.ports.draws, { s with ports := { s.ports with draws := s.ports.draws + 1 } })

/-- Key.isDown(k), any boolean for any key (44 R207). -/
def takeKeyDown (s : State) : KeyAnswer × State :=
  match s.ports.keyDown with
  | a :: rest => (a, { s with ports := { s.ports with keyDown := rest } })
  | [] => (Config.freeKeyDown s.ports.draws, { s with ports := { s.ports with draws := s.ports.draws + 1 } })

/-- One look at an open Key.waitForKey() (44 R206, R207). -/
def takeKeyWait (s : State) : WaitAnswer × State :=
  match s.ports.keyWait with
  | a :: rest => (a, { s with ports := { s.ports with keyWait := rest } })
  | [] => (Config.freeKeyWait s.ports.draws, { s with ports := { s.ports with draws := s.ports.draws + 1 } })

/-- The Display Sink's answer to one call (44 R200). -/
def takeSink (s : State) : SinkAnswer × State :=
  match s.ports.display with
  | a :: rest => (a, { s with ports := { s.ports with display := rest } })
  | [] => (Config.freeSink s.ports.draws, { s with ports := { s.ports with draws := s.ports.draws + 1 } })

/-! Waiting for a key (44 R206). -/

/-- RUN ← WaitKey; WAIT_X ← x; WAIT_ADDR ← a. What WAIT_X and WAIT_ADDR held is kept for the undo (log 11). -/
def enterWait (x : Nibble) (s : State) : State :=
  { s with
    run := .waitKey
    waitX := x
    waitAddr := instrAddr s
    undoX := s.waitX
    undoAddr := s.waitAddr
    ret := .notYet }

/-- The wait ends with key k: V[WAIT_X] ← k, RUN ← Ready, the step returns. -/
def endWait (k : Nibble) (s : State) : State :=
  { setV s.waitX (k.setWidth 8) s with run := .ready, ret := .ok }

/-- The wait ends with a backend failure: BackendError with PC = a, the wait's bookkeeping undone (60 R236), so that
WAIT_X and WAIT_ADDR are as before the Fx0A (DEDUCED, log 11). DT and ST keep the ticks that arrived in the wait, which
are the host's and no write of the step (DEDUCED, log 23). -/
def failWait (s : State) : State :=
  enterFault .backendError s.waitAddr (some (encode (.ldVxK s.waitX))) 0
    { s with waitX := s.undoX, waitAddr := s.undoAddr }

/-- The open wait goes on: the Key Source is looked at once (log 10). -/
def waitOnce (s : State) : State :=
  match takeKeyWait s with
  | (.noKeyYet, t) => t
  | (.pressed k, t) => endWait k t
  | (.backendError, t) => failWait t

/-! The host's operations (60 R247). -/

/-- A timer one tick later, floored at 0 (43 R185). -/
def decrement (t : Byte) : Byte := if t = 0 then 0 else t - 1

/-- decrementTimers() (43 R185). -/
def tick (s : State) : State := { s with dt := decrement s.dt, st := decrement s.st }

/-- What load returns to the host (20 R60, R61). -/
inductive LoadReturn where
  | ok
  | outOfBounds
deriving DecidableEq, Repr

/-- load(bytes, offset) of 20 R60: checked before the copy, nothing written on failure. -/
def load (bytes : List Byte) (offset : Int) (s : State) : LoadReturn × State :=
  if offset < 0 ∨ (s.params.memSize : Int) < offset + bytes.length then (.outOfBounds, s)
  else (.ok, storeBytes s offset.toNat bytes)

/-- Reset of a running core: a construction with the same parameters (70 R271). The ports are outside the core
and go on (log 17). -/
def resetNow (s : State) : State := { State.construct s.params with ports := s.ports }

end Sys2Proof.Machine
end

