-- ==== Sys2Proof/Machine/Operands.lean ====
section
/-! DEFINITION. Operands.lean: the operand forms (spec 30 R85): registers by number, immediates zero-extended,
the implied V0, VF and I. -/

namespace Sys2Proof.Machine

/-- VF is V[15] (10 R22). -/
def regF : Nibble := 0xF

/-- V0, which Bnnn reads (40 R108). -/
def reg0 : Nibble := 0

/-- zext_16(nnn) (30 R85). -/
def addrOperand (nnn : Addr12) : Word := nnn.setWidth 16

/-- zext_16 of an 8-bit operand (00 R10). -/
def byteOperand (b : Byte) : Word := b.setWidth 16

/-- The data base address I as an exact integer (20 R53). -/
def baseAddr (s : State) : Nat := s.i.toNat

/-- The number of registers V0..Vx (42 R163, R164). -/
def regCount (x : Nibble) : Nat := x.toNat + 1

/-- Hundreds, tens, ones of an 8-bit value (42 R162). -/
def decimalDigits (b : Byte) : List Byte :=
  [BitVec.ofNat 8 (b.toNat / 100), BitVec.ofNat 8 (b.toNat / 10 % 10), BitVec.ofNat 8 (b.toNat % 10)]

/-- The address of the glyph of an 8-bit value, unmasked (42 R161, 10 R43). -/
def glyphAddr (b : Byte) : Word :=
  BitVec.ofNat 16 (Config.fontBase + b.toNat * Config.glyphSize)

end Sys2Proof.Machine
end

