-- ==== Sys2Proof/Machine/Flags.lean ====
section
/-! DEFINITION. Flags.lean: the values written to VF as a flag (spec 10 R27, 41 R137) and the order of the two
writes (41 R145). -/

namespace Sys2Proof.Machine

/-- A flag as a byte: 1 or 0. -/
def flagByte (b : Bool) : Byte := if b then 1 else 0

/-- 8xy4: 1 iff the widened sum is at least 256 (41 R138). -/
def carryFlag (a b : Byte) : Bool := decide (256 ≤ a.toNat + b.toNat)

/-- 8xy5 and 8xy7: 1 iff a > b, strictly (41 R137, 90 C7). -/
def greaterFlag (a b : Byte) : Bool := decide (b.toNat < a.toNat)

/-- 8xy6: bit 0 before the shift (41 R140). -/
def lowBitFlag (a : Byte) : Bool := a.getLsbD 0

/-- 8xyE: bit 7 before the shift (41 R142). -/
def highBitFlag (a : Byte) : Bool := a.getLsbD 7

/-- VF ← flag, then V[x] ← result, in this order, so that for x = F the result stays (41 R145). -/
def writeFlagged (x : Nibble) (flag : Bool) (result : Byte) (s : State) : State :=
  setV x result (setV regF (flagByte flag) s)

end Sys2Proof.Machine
end

