-- ==== Sys2Proof/Machine/Alu.lean ====
section
/-! DEFINITION. Alu.lean: loads and adds of an immediate, register moves, logic, arithmetic with the VF flag,
and random (spec 41_alu.md). Operands are latched before any write (00 R14). -/

namespace Sys2Proof.Machine

/-- 6xkk LD Vx, kk (41 R131). -/
def execLdImm (x : Nibble) (kk : Byte) (s : State) : Result := .next (setV x kk s)

/-- 7xkk ADD Vx, kk (41 R132): no flag. -/
def execAddImm (x : Nibble) (kk : Byte) (s : State) : Result := .next (setV x (getV s x + kk) s)

/-- 8xy0 LD Vx, Vy (41 R133). -/
def execLdReg (x y : Nibble) (s : State) : Result := .next (setV x (getV s y) s)

/-- 8xy1 OR (41 R134). -/
def execOrReg (x y : Nibble) (s : State) : Result := .next (setV x (getV s x ||| getV s y) s)

/-- 8xy2 AND (41 R135). -/
def execAndReg (x y : Nibble) (s : State) : Result := .next (setV x (getV s x &&& getV s y) s)

/-- 8xy3 XOR (41 R136). -/
def execXorReg (x y : Nibble) (s : State) : Result := .next (setV x (getV s x ^^^ getV s y) s)

/-- 8xy4 ADD with carry out (41 R138). -/
def execAddReg (x y : Nibble) (s : State) : Result :=
  .next (writeFlagged x (carryFlag (getV s x) (getV s y)) (getV s x + getV s y) s)

/-- 8xy5 SUB (41 R139). -/
def execSubReg (x y : Nibble) (s : State) : Result :=
  .next (writeFlagged x (greaterFlag (getV s x) (getV s y)) (getV s x - getV s y) s)

/-- 8xy6 SHR (41 R140). -/
def execShr (x : Nibble) (s : State) : Result :=
  .next (writeFlagged x (lowBitFlag (getV s x)) (getV s x >>> 1) s)

/-- 8xy7 SUBN (41 R141). -/
def execSubnReg (x y : Nibble) (s : State) : Result :=
  .next (writeFlagged x (greaterFlag (getV s y) (getV s x)) (getV s y - getV s x) s)

/-- 8xyE SHL (41 R142). -/
def execShl (x : Nibble) (s : State) : Result :=
  .next (writeFlagged x (highBitFlag (getV s x)) (getV s x <<< 1) s)

/-- Cxkk RND (41 R143): one draw, always taken. -/
def execRnd (x : Nibble) (kk : Byte) (s : State) : Result :=
  .next (setV x ((takeRandom s).1 &&& kk) (takeRandom s).2)

end Sys2Proof.Machine
end

