-- ==== Sys2Proof/Machine/ControlFlow.lean ====
section
/-! DEFINITION. ControlFlow.lean: RET, JP, CALL, the skips and JP V0 (spec 40_control_flow.md). PC reads as a + 2
in each (10 R24). -/

namespace Sys2Proof.Machine

/-- 00EE RET (40 R101). -/
def execRet (s : State) : Result :=
  if s.sp = 0 then .next (raise .stackUnderflow .ret 0 s)
  else
    match stackAt s (s.sp.toNat - 1) with
    | some target => .next (jump target { s with sp := s.sp - 1 })
    | none => .fault .spOutOfRange

/-- 1nnn JP (40 R102). -/
def execJp (nnn : Addr12) (s : State) : Result := .next (jump (addrOperand nnn) s)

/-- 2nnn CALL (40 R103): the pushed PC is the advanced one. -/
def execCall (nnn : Addr12) (s : State) : Result :=
  .next (if 16 ≤ s.sp.toNat then raise .stackOverflow (.call nnn) 0 s
    else jump (addrOperand nnn) (push s.pc s))

/-- 3xkk SE (40 R104). -/
def execSeImm (x : Nibble) (kk : Byte) (s : State) : Result := .next (skipIf (getV s x == kk) s)

/-- 4xkk SNE (40 R105). -/
def execSneImm (x : Nibble) (kk : Byte) (s : State) : Result := .next (skipIf (getV s x != kk) s)

/-- 5xy0 SE (40 R106). -/
def execSeReg (x y : Nibble) (s : State) : Result := .next (skipIf (getV s x == getV s y) s)

/-- 9xy0 SNE (40 R107). -/
def execSneReg (x y : Nibble) (s : State) : Result := .next (skipIf (getV s x != getV s y) s)

/-- Bnnn JP V0, nnn (40 R108): the exact sum, at most 0x10FE. -/
def execJpV0 (nnn : Addr12) (s : State) : Result :=
  .next (jump (addrOperand nnn + byteOperand (getV s reg0)) s)

end Sys2Proof.Machine
end

