-- ==== Sys2Proof/Machine/Sink.lean ====
section
/-! DEFINITION. Sink.lean: the Display Sink as the core sees it (spec 44 R200, R201): the reference framebuffer,
or an external sink whose collision answer is a draw (00 R8). -/

namespace Sys2Proof.Machine

/-- FB[px][py] by pixel number. -/
def Frame.isSet (fb : Frame) (p : Nat) : Bool := fb.contains p

/-- The pixel's bit turned over, the list kept rising. -/
def Frame.toggle (p : Nat) : Frame → Frame
  | [] => [p]
  | q :: rest => if p < q then p :: q :: rest else if p = q then rest else q :: Frame.toggle p rest

/-- The pixel numbers rise strictly. -/
def Frame.rising : Frame → Bool
  | [] => true
  | p :: rest => rest.all (fun q => decide (p < q)) && Frame.rising rest

/-- A canonical frame of the display: rising, every pixel on the display. -/
def Frame.wf (p : Params) (fb : Frame) : Bool :=
  Frame.rising fb && fb.all (fun q => decide (q < p.displayW * p.displayH))

/-- The number of pixel (px, py), coordinates wrapped (44 R201). -/
def pixelAt (p : Params) (px py : Nat) : Nat := py % p.displayH * p.displayW + px % p.displayW

/-- Bit 7 - b of a sprite row, the pixel at column offset b (44 R201). -/
def rowBit (row : Byte) (b : Nat) : Bool := row.getLsbD (7 - b)

/-- One row of setSprite: the pixels of column offsets 0..7 and the bits drawn there. -/
def rowPixels (p : Params) (x y : Nat) (row : Byte) : List (Nat × Bool) :=
  (List.range 8).map (fun b => (pixelAt p (x + b) y, rowBit row b))

/-- The setPixel calls of setSprite(x, y, rows), in order (44 R201). -/
def spritePixels (p : Params) (x y : Nat) : List Byte → List (Nat × Bool)
  | [] => []
  | row :: rest => rowPixels p x y row ++ spritePixels p x (y + 1) rest

/-- setPixel (44 R201): XOR, and whether a set pixel was turned off. -/
def setPixel (q : Nat) (on : Bool) (fb : Frame) : Frame × Bool :=
  (if on then Frame.toggle q fb else fb, on && Frame.isSet fb q)

/-- Repeated setPixel; the second part says whether any call collided. -/
def blit : List (Nat × Bool) → Frame → Frame × Bool
  | [], fb => (fb, false)
  | (q, on) :: rest, fb =>
    ((blit rest (setPixel q on fb).1).1, (setPixel q on fb).2 || (blit rest (setPixel q on fb).1).2)

/-- setSprite(x, y, rows) of the reference sink (44 R201). -/
def setSprite (p : Params) (x y : Nat) (rows : List Byte) (fb : Frame) : Frame × Bool :=
  blit (spritePixels p x y rows) fb

/-- The framebuffer after a failed call: any value, each pixel free (60 R236, 92 D28, log 8). -/
def freeFrame (p : Params) (draws : Nat) : Frame :=
  (List.range (p.displayW * p.displayH)).filter (fun q => Config.freePixel draws q)

/-- The sink failed: the reference framebuffer holds any value; an external sink has none in the state. -/
def sinkFailed (s : State) : State :=
  match s.params.sink with
  | .reference =>
    { s with fb := freeFrame s.params s.ports.draws, ports := { s.ports with draws := s.ports.draws + 1 } }
  | .external => s

/-- Display.clear() (44 R201, R203): whether it succeeded, and the state. -/
def sinkClear (s : State) : Bool × State :=
  match takeSink s with
  | (.backendError, t) => (false, sinkFailed t)
  | (.done _, t) =>
    match t.params.sink with
    | .reference => (true, { t with fb := [] })
    | .external => (true, t)

/-- Display.setSprite(x, y, rows) (44 R201, R202): the collision, or none for BackendError, and the state. The external
sink's answer is taken as it comes for no rows too, where 44 R209 says VF = 0 (DESIGN CHOICE, log 9). -/
def sinkDraw (x y : Nat) (rows : List Byte) (s : State) : Option Bool × State :=
  match takeSink s with
  | (.backendError, t) => (none, sinkFailed t)
  | (.done collision, t) =>
    match t.params.sink with
    | .reference => (some (setSprite t.params x y rows t.fb).2, { t with fb := (setSprite t.params x y rows t.fb).1 })
    | .external => (some collision, t)

end Sys2Proof.Machine
end

