-- ==== Sys2Proof/Machine/DisplayKeys.lean ====
section
/-! DEFINITION. DisplayKeys.lean: the display and key instructions (spec 44_io.md). -/

namespace Sys2Proof.Machine

/-- 00E0 CLS (44 R203). -/
def execCls (s : State) : Result :=
  .next (match sinkClear s with
    | (true, t) => t
    | (false, t) => raise .backendError .cls 0 t)

/-- Dxyn DRW (44 R202, R209): the range first, then the port, then VF. -/
def execDrw (x y n : Nibble) (s : State) : Result :=
  .next (match rangeFault s.params.memSize (baseAddr s) n.toNat with
    | some a => raise .outOfBoundsData (.drw x y n) a s
    | none =>
      match sinkDraw (getV s x).toNat (getV s y).toNat (loadBytes s (baseAddr s) n.toNat) s with
      | (some collision, t) => setV regF (flagByte collision) t
      | (none, t) => raise .backendError (.drw x y n) 0 t)

/-- The two key skips: the key's range first, then the port (44 R204, R205; 60 R234). The skip is taken when the
answer is `want`. FAULT_INFO of KeyOutOfRange is the key, as 60 R231 and R232 and 95 IO-13 have it, where 10 R33's
table says 0 for every cause but OutOfBounds (DESIGN CHOICE, log 22). -/
def keySkip (i : Instr) (key : Byte) (want : Bool) (s : State) : State :=
  if 15 < key.toNat then raise .keyOutOfRange i key.toNat s
  else
    match takeKeyDown s with
    | (.held down, t) => skipIf (down == want) t
    | (.backendError, t) => raise .backendError i 0 t

/-- Ex9E SKP (44 R204). -/
def execSkp (x : Nibble) (s : State) : Result := .next (keySkip (.skp x) (getV s x) true s)

/-- ExA1 SKNP (44 R205). -/
def execSknp (x : Nibble) (s : State) : Result := .next (keySkip (.sknp x) (getV s x) false s)

/-- Fx0A LD Vx, K (44 R206): the wait opens and the Key Source is looked at once; step looks again (log 10). -/
def execLdVxK (x : Nibble) (s : State) : Result := .next (waitOnce (enterWait x s))

end Sys2Proof.Machine
end

