-- ==== Sys2Proof/Machine/IndexMemory.lean ====
section
/-! DEFINITION. IndexMemory.lean: setting I, the decimal store and the register block transfers (spec
42_index_memory.md). The whole range is checked before any access (20 R54). -/

namespace Sys2Proof.Machine

/-- Annn LD I, nnn (42 R160). -/
def execLdI (nnn : Addr12) (s : State) : Result := .next { s with i := addrOperand nnn }

/-- Fx29 LD F, Vx (42 R161). -/
def execLdFVx (x : Nibble) (s : State) : Result := .next { s with i := glyphAddr (getV s x) }

/-- Fx33 LD B, Vx (42 R162). -/
def execLdBVx (x : Nibble) (s : State) : Result :=
  .next (match rangeFault s.params.memSize (baseAddr s) 3 with
    | some a => raise .outOfBoundsData (.ldBVx x) a s
    | none => storeBytes s (baseAddr s) (decimalDigits (getV s x)))

/-- Fx55 LD [I], Vx (42 R163). -/
def execLdMemVx (x : Nibble) (s : State) : Result :=
  .next (match rangeFault s.params.memSize (baseAddr s) (regCount x) with
    | some a => raise .outOfBoundsData (.ldMemVx x) a s
    | none => storeBytes s (baseAddr s) (getVs s x))

/-- Fx65 LD Vx, [I] (42 R164). -/
def execLdVxMem (x : Nibble) (s : State) : Result :=
  .next (match rangeFault s.params.memSize (baseAddr s) (regCount x) with
    | some a => raise .outOfBoundsData (.ldVxMem x) a s
    | none => setVs s 0 (loadBytes s (baseAddr s) (regCount x)))

end Sys2Proof.Machine
end

