-- ==== Sys2Proof/Machine/Timers.lean ====
section
/-! DEFINITION. Timers.lean: Fx07, Fx15 and Fx18 (spec 43_timers.md). The tick is in Ops.lean. -/

namespace Sys2Proof.Machine

/-- Fx07 LD Vx, DT (43 R180). -/
def execLdVxDt (x : Nibble) (s : State) : Result := .next (setV x s.dt s)

/-- Fx15 LD DT, Vx (43 R181). -/
def execLdDtVx (x : Nibble) (s : State) : Result := .next { s with dt := getV s x }

/-- Fx18 LD ST, Vx (43 R182). -/
def execLdStVx (x : Nibble) (s : State) : Result := .next { s with st := getV s x }

end Sys2Proof.Machine
end

