-- ==== Sys2Proof/Machine/Step.lean ====
section
/-! DEFINITION. Step.lean: one transition of the core. In Ready it is a `step()` call (spec 30 R80), in WaitKey
the open call's wait goes on (44 R206), in Faulted it is a call that returns the recorded fault (60 R237). -/

namespace Sys2Proof.Machine

/-- The decode and execute part of 30 R80 for the word w, PC not yet advanced. -/
def runWord (w : Word) (s : State) : Host.Outcome State Fault Refusal :=
  match decodeWord w with
  | .instr i => exec i (beginStep s)
  | .rejected _ => .next (unknownWord w (beginStep s))

/-- One transition of the core. -/
def step (s : State) : Host.Outcome State Fault Refusal :=
  match s.run with
  | .ready =>
    match fetch s with
    | .outOfBounds info => .next (fetchFault info s)
    | .word w => runWord w s
  | .waitKey => .next (waitOnce s)
  | .faulted => .next (repeatFault s)

/-- s with the instruction of bits w stored where the next fetch reads, and RUN = Ready so that step fetches
(log 6). It stands for the host's load before the first step (70 R273). -/
def State.withFetchWord (s : State) (nbits w : Nat) : State :=
  { storeBytes s s.pc.toNat (wordBytes (tableWord nbits w)) with run := .ready }

end Sys2Proof.Machine
end

