-- ==== Sys2Proof/Machine/Driver.lean ====
section
/-! DEFINITION. Driver.lean: the calls the host makes on the core and when it may make them (spec 60 R247,
R248). -/

namespace Sys2Proof.Machine

/-- One interaction of 60 R247. -/
inductive DriverCall where
  /-- `step()`. -/
  | step
  /-- The Key Source's turn while an Fx0A waits. -/
  | keySource
  /-- `decrementTimers()`. -/
  | tick
  /-- `load(bytes, offset)`. -/
  | load (bytes : List Byte) (offset : Int)
  /-- Reset with the same parameters. -/
  | reset
  /-- The host reads the state. -/
  | read
deriving DecidableEq, Repr

/-- What the core does at a driver's call. A call 60 R247 does not allow is refused by name (R248). -/
def driverCall (c : DriverCall) (s : State) : Result :=
  match c with
  | .step => if s.run = .waitKey then .refused .stepDuringWait else step s
  | .keySource => if s.run = .waitKey then step s else .refused .noWaitOpen
  | .tick => .next (tick s)
  | .load bytes offset => if s.run = .waitKey then .refused .loadDuringWait else .next (load bytes offset s).2
  | .reset => .next (resetNow s)
  | .read => .next s

/-- Calls one after another, stopping at the first fault or refusal. -/
def driverRun : List DriverCall → State → Result
  | [], s => .next s
  | c :: rest, s =>
    match driverCall c s with
    | .next t => driverRun rest t
    | .fault r => .fault r
    | .refused r => .refused r

end Sys2Proof.Machine
end

