-- ==== Sys2Proof/WellFormed.lean ====
section
/-! DEFINITION. WellFormed.lean: which parameters a construction may have (spec 00 R7), and which
instructions are well formed. -/

namespace Sys2Proof

/-- Every field of an instruction has exactly the width of its encoding (30 R83, R85), so every term is well
formed: 30 R86 lets x, y, n, kk and nnn be anything. -/
def Instr.wellFormed : Instr → Bool := fun _ => true

/-- 80 ≤ N ≤ 0x10000 (00 R7, 92 D1). -/
def Params.memSizeOk (p : Params) : Bool := decide (80 ≤ p.memSize) && decide (p.memSize ≤ 0x10000)

/-- DISPLAY_W and DISPLAY_H are each at least 1 (00 R7). -/
def Params.displayOk (p : Params) : Bool := decide (1 ≤ p.displayW) && decide (1 ≤ p.displayH)

/-- MEM_INIT gives a byte only to addresses 80..N-1 (00 R7), each address at most once. -/
def Params.memInitOk (p : Params) : Bool :=
  p.memInit.all (fun c => decide (80 ≤ c.1) && decide (c.1 < p.memSize)) && decide (p.memInit.map Prod.fst).Nodup

/-- The parameters 00 R7 allows. -/
def Params.wellFormed (p : Params) : Bool := p.memSizeOk && p.displayOk && p.memInitOk

end Sys2Proof
end

