-- ==== Sys2Proof/Safety.lean ====
section
/-! DEFINITION. Safety.lean: the invariant of the machine, what a successful state is, and the end of a run
(spec 70 R280). -/

namespace Sys2Proof.Machine

/-- What holds of every state a run reaches. -/
structure Inv (s : State) : Prop where
  /-- The parameters are ones 00 R7 allows. -/
  params : s.params.wellFormed = true
  /-- Memory is canonical. -/
  mem : Memory.wf s.params s.mem = true
  /-- Memory lists no address outside 0..N-1 (20 R50). -/
  memBound : Memory.bounded s.params s.mem = true
  /-- SP ranges over 0..16 (10 R30). -/
  sp : s.sp.toNat ≤ 16
  /-- I is at most 0xFFF (10 R29). -/
  i : s.i.toNat ≤ 0xFFF
  /-- The framebuffer is canonical and lies on the display (10 R36). -/
  fb : Frame.wf s.params s.fb = true
  /-- In WaitKey, PC is WAIT_ADDR + 2 (20 R70). -/
  wait : s.run = .waitKey → s.pc = s.waitAddr + 2
  /-- A call is open exactly while a key is waited for (44 R206, log 12). -/
  openCall : s.run = .waitKey ↔ s.ret = .notYet
  /-- Faulted exactly when a cause is recorded (10 R33). -/
  cause : s.run = .faulted ↔ s.fault.cause ≠ none
  /-- In Faulted, PC is FAULT_ADDR and the record is what the call returned (60 R232, R236). -/
  faulted : s.run = .faulted → s.pc = s.fault.addr ∧ s.ret = .fault s.fault
  /-- Without an UnknownOpcode report nothing is recorded (10 R33). -/
  unk : s.unk = false → s.unkAddr = 0 ∧ s.unkOp = 0

/-- 70 R280 (b): the premise of every claim of success. -/
def successful (s : State) : Bool := decide (s.run ≠ .faulted) && !s.unk

/-- 70 R280 (a): Ready at a jump to itself with PC + 1 < N. -/
def terminal (s : State) : Bool :=
  decide (s.run = .ready) &&
    match fetch s with
    | .outOfBounds _ => false
    | .word w => decide (w = encode (.jp (s.pc.setWidth 12))) && decide (s.pc.toNat < 0x1000)

end Sys2Proof.Machine
end

