-- ==== Sys2Proof/Certificates/Slice0/Obligations.lean ====
section
/-! DEFINITION. Obligations.lean: the statements for the provers, and the few predicates they share. -/

namespace Sys2Proof.Claims

open Sys2Proof.Machine

/-- The frame: t holds what s holds, but for the registers listed and the memory bytes base..base+len-1. -/
structure SameBut (regs : List Nibble) (base len : Nat) (s t : State) : Prop where
  v        : ∀ r : Nibble, r ∉ regs → getV t r = getV s r
  i        : t.i = s.i
  pc       : t.pc = s.pc
  sp       : t.sp = s.sp
  stack    : t.stack = s.stack
  dt       : t.dt = s.dt
  st       : t.st = s.st
  mem      : ∀ a : Nat, a < base ∨ base + len ≤ a → readByte t a = readByte s a
  run      : t.run = s.run
  waitX    : t.waitX = s.waitX
  waitAddr : t.waitAddr = s.waitAddr
  fault    : t.fault = s.fault
  unk      : t.unk = s.unk
  unkAddr  : t.unkAddr = s.unkAddr
  unkOp    : t.unkOp = s.unkOp
  fb       : t.fb = s.fb
  params   : t.params = s.params
  ports    : t.ports = s.ports
  undoX    : t.undoX = s.undoX
  undoAddr : t.undoAddr = s.undoAddr
  ret      : t.ret = s.ret

/-- Instruction i, executed at s (PC = a + 2), raised cause c: the record of 60 R232, RUN = Faulted, PC = a, the
record returned, and nothing else changed (60 R235, R236). -/
structure Trapped (c : Cause) (i : Instr) (info : Nat) (s t : State) : Prop where
  run   : t.run = .faulted
  cause : t.fault.cause = some c
  addr  : t.fault.addr = s.pc - 2
  op    : t.fault.op = some (encode i)
  info  : t.fault.info.toNat = info
  pc    : t.pc = s.pc - 2
  ret   : t.ret = .fault t.fault
  frame : SameBut [] 0 0 { s with pc := t.pc, run := t.run, fault := t.fault, ret := t.ret } t

/-- The registers an instruction may write (10 R23). -/
def writes : Instr → List Nibble
  | .ldImm x _ | .addImm x _ | .ldReg x _ | .orReg x _ | .andReg x _ | .xorReg x _ | .rnd x _ => [x]
  | .addReg x _ | .subReg x _ | .shr x | .subnReg x _ | .shl x => [x, 0xF]
  | .drw _ _ _ => [0xF]
  | .ldVxDt x | .ldVxK x => [x]
  | .ldVxMem x => (List.range (x.toNat + 1)).map (BitVec.ofNat 4)
  | _ => []

/-- The instructions that skip (40 R100). -/
def isSkip : Instr → Bool
  | .seImm _ _ | .sneImm _ _ | .seReg _ _ | .sneReg _ _ | .skp _ | .sknp _ => true
  | _ => false

/-- The instructions that call a port (44 R200, R207; 41 R144). -/
def callsPort : Instr → Bool
  | .cls | .drw _ _ _ | .skp _ | .sknp _ | .ldVxK _ | .rnd _ _ => true
  | _ => false

/-- The number of pixel (x + b, y + r), each coordinate wrapped (44 R201). -/
def spritePixel (p : Params) (x y r b : Nat) : Nat := (y + r) % p.displayH * p.displayW + (x + b) % p.displayW

/-- The k-th setPixel of a sprite, row by row and column by column, turns pixel q over: it names q and its bit is
set (44 R201). -/
def turnsOver (p : Params) (x y : Nat) (rows : List Byte) (q k : Nat) : Bool :=
  (rows.getD (k / 8) 0).getLsbD (7 - k % 8) && spritePixel p x y (k / 8) (k % 8) == q

/-- Pixel q after the first m setPixels of a sprite: turned over once for each that turns it over (44 R201). -/
def pixelAfter (p : Params) (x y : Nat) (rows : List Byte) (fb : Frame) (q m : Nat) : Bool :=
  Frame.isSet fb q ^^ (List.range m).countP (turnsOver p x y rows q) % 2 == 1

/-- Byte a after an Fx55 at s that does not fault (42 R163). -/
def byteAfterFx55 (s : State) (x : Nibble) (a : Nat) : Byte :=
  if s.i.toNat ≤ a ∧ a ≤ s.i.toNat + x.toNat then getV s (BitVec.ofNat 4 (a - s.i.toNat)) else readByte s a

/-- Byte a after an Fx33 at s that does not fault (42 R162). -/
def byteAfterFx33 (s : State) (x : Nibble) (a : Nat) : Byte :=
  if a = s.i.toNat then BitVec.ofNat 8 ((getV s x).toNat / 100)
  else if a = s.i.toNat + 1 then BitVec.ofNat 8 ((getV s x).toNat / 10 % 10)
  else if a = s.i.toNat + 2 then BitVec.ofNat 8 ((getV s x).toNat % 10)
  else readByte s a

end Sys2Proof.Claims

open Sys2Proof Sys2Proof.Machine Sys2Proof.Claims

/-! Reset and the invariant. -/

/-- 10 R40, R33, 70 R270, R272: what reset leaves, for every choice of the parameters. The values are the spec's
own decisions D12 (register zeros, the entry), D13 (memory), D18, D32 and D33. The ports and the undo fields are
the model's own and not stated. -/
def Obligations.ResetLeavesTheSpecValues : Prop :=
  ∀ p : Params,
    (∀ x : Nibble, getV (State.construct p) x = 0) ∧
    (State.construct p).i = 0 ∧ (State.construct p).pc = p.entry ∧ (State.construct p).sp = 0 ∧
    (∀ j : Nat, j < 16 → stackAt (State.construct p) j = some 0) ∧
    (State.construct p).dt = 0 ∧ (State.construct p).st = 0 ∧
    (∀ (a : Nat) (h : a < 80), readByte (State.construct p) a = p.font[a]) ∧
    (∀ a : Nat, 80 ≤ a → a < p.memSize → readByte (State.construct p) a = cellAt p.memInit a 0) ∧
    runCode (State.construct p).run = 0 ∧
    (State.construct p).waitX = 0 ∧ (State.construct p).waitAddr = 0 ∧
    causeCode (State.construct p).fault.cause = 0 ∧ (State.construct p).fault.addr = 0 ∧
    faultOpCode (State.construct p).fault.op = 0x10000 ∧ (State.construct p).fault.info = 0 ∧
    (State.construct p).unk = false ∧ (State.construct p).unkAddr = 0 ∧ (State.construct p).unkOp = 0 ∧
    (∀ q : Nat, Frame.isSet (State.construct p).fb q = false)

/-- 00 R7, 70 R272 (decisions D1, D12, D13): with the default parameters PC is 0x200 after reset, and every byte
above the font is 0. The defaults are the model's choice of parameters (log 3). -/
def Obligations.DefaultResetStartsAt0x200 : Prop :=
  State.reset.pc = 0x200 ∧ State.reset.params.memSize = 0x1000 ∧
    ∀ a : Nat, 80 ≤ a → a < 0x1000 → readByte State.reset a = 0

/-- The invariant holds after every construction 00 R7 allows, the default among them. -/
def Obligations.InvariantHoldsAfterConstruction : Prop :=
  Inv State.reset ∧ ∀ p : Params, p.wellFormed = true → Inv (State.construct p)

/-- Every transition of the core keeps the invariant. -/
def Obligations.EveryStepKeepsTheInvariant : Prop :=
  ∀ s t : State, Inv s → step s = .next t → Inv t

/-- Every call of the driver keeps the invariant, and so does every sequence of calls. -/
def Obligations.EveryDriverRunKeepsTheInvariant : Prop :=
  ∀ (calls : List DriverCall) (s t : State), Inv s → driverRun calls s = .next t → Inv t

/-- From a state that meets the invariant `step` answers a next state, and no outcome `fault` or `refused` of the
host's interface. That rests on two choices of the model: a fault of 60 R231, and a call in Faulted, are next states
(log 1), and in WaitKey a look at the Key Source that finds no key is a transition (log 10). It does not deny the wait
that never ends, which 93 I-11 calls stuck and 70 R277 a hang: there the model answers such looks for ever. -/
def Obligations.EveryInvariantStateHasANextState : Prop :=
  ∀ s : State, Inv s → ∃ t : State, step s = .next t

/-- No transition and no driver's call changes the parameters. 00 R7 names them, 10 R20 calls them
parameters of the step, 20 R50 fixes the size at construction, and 70 R271 makes a reset a fresh construction. That
they stand in a field of the state, which the statement is about, is the model's choice (DESIGN CHOICE, log 2). -/
def Obligations.ParametersNeverChange : Prop :=
  ∀ s t : State, (step s = .next t → t.params = s.params) ∧
    ∀ c : DriverCall, driverCall c s = .next t → t.params = s.params

/-- 70 R271: reset is allowed in every state and nothing survives it but the parameters (and the ports, which are
outside the core: log 17). -/
def Obligations.ResetForgetsEverything : Prop :=
  ∀ s : State, ∃ t : State, driverCall .reset s = .next t ∧ t.run = .ready ∧
    SameBut [] 0 0 { State.construct s.params with ports := s.ports } t ∧
    ∀ s' : State, s'.params = s.params → s'.ports = s.ports → driverCall .reset s' = .next t

/-! Encoding and decoding. -/

/-- Every instruction decodes back from its word, and from its bytes with anything after them. -/
def Obligations.DecodingInvertsEncoding : Prop :=
  ∀ i : Instr, i.wellFormed = true → decodeWord (encode i) = .instr i ∧
    ∀ rest : List Byte, decodeBytes (encodeBytes i ++ rest) = (.instr i, rest)

/-- A word that decodes is the word of its instruction, but for the y field of the two shifts (30 R87). -/
def Obligations.EncodingInvertsDecoding : Prop :=
  ∀ (w : Word) (i : Instr), decodeWord w = .instr i →
    encode i = if i.row = 15 ∨ i.row = 17 then w &&& 0xFF0F else w

/-- 30 R86: a word decodes to a row's instruction exactly when it fits that row of the opcode table, no word fits
two rows, and a word that fits none is Unknown. -/
def Obligations.DecodingFollowsTheOpcodeTable : Prop :=
  ∀ w : Word,
    (∀ i : Instr, decodeWord w = .instr i → i.row < 33 ∧ i.pattern.fits w = true) ∧
    (∀ k : Nat, k < 33 → (opcodeTable.getD k ⟨0, 0⟩).fits w = true →
      ∃ i : Instr, decodeWord w = .instr i ∧ i.row = k) ∧
    (∀ j k : Nat, j < 33 → k < 33 → (opcodeTable.getD j ⟨0, 0⟩).fits w = true →
      (opcodeTable.getD k ⟨0, 0⟩).fits w = true → j = k) ∧
    ((∀ k : Nat, k < 33 → (opcodeTable.getD k ⟨0, 0⟩).fits w = false) →
      decodeWord w = .rejected (.unknown w))

/-- Words of 95_test_vectors.md, one of each family, decode to what they stand for; four Unknown words do not. -/
def Obligations.SpecWordsDecodeAsWritten : Prop :=
  decodeWord 0x00E0 = .instr .cls ∧ decodeWord 0x2206 = .instr (.call 0x206) ∧
  decodeWord 0x3310 = .instr (.seImm 3 0x10) ∧ decodeWord 0x8AB7 = .instr (.subnReg 0xA 0xB) ∧
  decodeWord 0x80E6 = .instr (.shr 0) ∧ decodeWord 0xBFFF = .instr (.jpV0 0xFFF) ∧
  decodeWord 0xD015 = .instr (.drw 0 1 5) ∧ decodeWord 0xE1A1 = .instr (.sknp 1) ∧
  decodeWord 0xFA29 = .instr (.ldFVx 0xA) ∧ decodeWord 0xF265 = .instr (.ldVxMem 2) ∧
  decodeWord 0x00FF = .rejected (.unknown 0x00FF) ∧ decodeWord 0x5121 = .rejected (.unknown 0x5121) ∧
  decodeWord 0x8018 = .rejected (.unknown 0x8018) ∧ decodeWord 0xF11E = .rejected (.unknown 0xF11E)

/-! The step contract. -/

/-- 30 R80 (spec decision D7): in Ready, with the two bytes at PC and PC + 1 in memory, step runs the instruction
they decode to, at the state whose PC is advanced by 2 (mod 0x10000). The call is set to return ok first, which is
the model's own field (log 12). -/
def Obligations.StepRunsTheDecodedInstruction : Prop :=
  ∀ (s : State) (i : Instr), s.run = .ready → s.pc.toNat + 1 < s.params.memSize →
    decodeBytes [readByte s s.pc.toNat, readByte s (s.pc.toNat + 1)] = (.instr i, []) →
    ∃ t : State, step s = exec i t ∧ t.pc.toNat = (s.pc.toNat + 2) % 0x10000 ∧ t.ret = .ok ∧
      SameBut [] 0 0 { s with pc := t.pc, ret := t.ret } t

/-- 30 R81: the fetch is big-endian (the spec's choice, decision D2; the fault's shape is D7), and a fetch at PC +
1 ≥ N faults with code 1: PC not advanced, FAULT_OP none, FAULT_INFO = a if a ≥ N, else a + 1. -/
def Obligations.FetchIsBigEndianAndBoundsChecked : Prop :=
  ∀ s : State, s.run = .ready →
    (s.pc.toNat + 1 < s.params.memSize → ∃ w : Word, fetch s = .word w ∧
      w.toNat = (readByte s s.pc.toNat).toNat * 0x100 + (readByte s (s.pc.toNat + 1)).toNat) ∧
    (s.params.memSize ≤ s.pc.toNat + 1 → ∃ t : State, step s = .next t ∧ t.run = .faulted ∧
      causeCode t.fault.cause = 1 ∧ t.fault.addr = s.pc ∧ faultOpCode t.fault.op = 0x10000 ∧
      t.fault.info.toNat = (if s.params.memSize ≤ s.pc.toNat then s.pc.toNat else s.pc.toNat + 1) ∧
      t.ret = .fault t.fault ∧
      SameBut [] 0 0 { s with run := t.run, fault := t.fault, ret := t.ret } t)

/-- 60 R233: an Unknown word under each policy (the spec's decision D9; code 5 is its D22). -/
def Obligations.UnknownWordsFollowThePolicy : Prop :=
  ∀ (s : State) (w : Word), s.run = .ready → fetch s = .word w → decodeWord w = .rejected (.unknown w) →
    (s.params.policy = .report → ∃ t : State, step s = .next t ∧ t.run = .ready ∧ t.ret = .report s.pc w ∧
      t.unk = true ∧ t.unkAddr = (if s.unk then s.unkAddr else s.pc) ∧ t.unkOp = (if s.unk then s.unkOp else w) ∧
      SameBut [] 0 0 { s with pc := s.pc + 2, unk := t.unk, unkAddr := t.unkAddr, unkOp := t.unkOp, ret := t.ret } t) ∧
    (s.params.policy = .silent → ∃ t : State, step s = .next t ∧ t.ret = .ok ∧
      SameBut [] 0 0 { s with pc := s.pc + 2, ret := t.ret } t) ∧
    (s.params.policy = .fatal → ∃ t : State, step s = .next t ∧ t.run = .faulted ∧ causeCode t.fault.cause = 5 ∧
      t.fault.addr = s.pc ∧ t.fault.op = some w ∧ t.fault.info = 0 ∧ t.ret = .fault t.fault ∧
      SameBut [] 0 0 { s with run := t.run, fault := t.fault, ret := t.ret } t)

/-- 60 R236, R232 (spec decisions D7, D22, D33): a transition that enters Faulted leaves V, I, SP, the stack, DT,
ST, memory and the unknown-word record as before, PC at the instruction's address a, which is FAULT_ADDR, and
returns the record. a is PC in Ready, WAIT_ADDR in WaitKey. The framebuffer is as before unless the cause is
BackendError, and WAIT_X and WAIT_ADDR are what they were before the instruction (log 11). DT and ST as before the
transition: after a wait they keep the ticks that arrived in it, the model's choice (log 23). -/
def Obligations.FatalFaultsArePrecise : Prop :=
  ∀ s t : State, s.run ≠ .faulted → step s = .next t → t.run = .faulted →
    (∀ r : Nibble, getV t r = getV s r) ∧ t.i = s.i ∧ t.sp = s.sp ∧ t.stack = s.stack ∧ t.dt = s.dt ∧ t.st = s.st ∧
    (∀ a : Nat, readByte t a = readByte s a) ∧ t.unk = s.unk ∧ t.unkAddr = s.unkAddr ∧ t.unkOp = s.unkOp ∧
    (t.fault.cause ≠ some .backendError → t.fb = s.fb) ∧
    (s.run = .ready → t.waitX = s.waitX ∧ t.waitAddr = s.waitAddr) ∧
    (s.run = .waitKey → t.waitX = s.undoX ∧ t.waitAddr = s.undoAddr) ∧
    t.pc = (if s.run = .waitKey then s.waitAddr else s.pc) ∧ t.fault.addr = t.pc ∧ t.fault.cause ≠ none ∧
    t.ret = .fault t.fault

/-- 60 R237 (spec decisions D8, D20): in Faulted, `step()` returns the recorded fault and changes nothing; reads,
ticks and loads are accepted and leave RUN and the record alone; and no sequence of calls without a reset leaves
Faulted. -/
def Obligations.OnlyResetLeavesFaulted : Prop :=
  ∀ s : State, s.run = .faulted →
    (∃ t : State, driverCall .step s = .next t ∧ t.ret = .fault s.fault ∧ SameBut [] 0 0 { s with ret := t.ret } t) ∧
    (s.ret = .fault s.fault → driverCall .step s = .next s) ∧
    driverCall .read s = .next s ∧ driverCall .tick s = .next (tick s) ∧
    (∀ (bytes : List Byte) (offset : Int), driverCall (.load bytes offset) s = .next (load bytes offset s).2) ∧
    (∃ t : State, driverCall .reset s = .next t ∧ t.run = .ready) ∧
    ∀ (calls : List DriverCall) (t : State), DriverCall.reset ∉ calls → driverRun calls s = .next t →
      t.run = .faulted ∧ t.fault = s.fault ∧ t.pc = s.pc ∧ t.sp = s.sp ∧ t.stack = s.stack ∧ t.i = s.i ∧
      ∀ r : Nibble, getV t r = getV s r

/-- 10 R25 (spec decision D3): PC after a step that does not fault: a + 2; a + 4 for a taken skip; the target of
1nnn, 2nnn, Bnnn; the popped value for 00EE. -/
def Obligations.PcAfterAStep : Prop :=
  ∀ (s t : State) (w : Word), s.run = .ready → fetch s = .word w → step s = .next t → t.run ≠ .faulted →
    match decodeWord w with
    | .instr (.jp nnn) => t.pc.toNat = nnn.toNat
    | .instr (.call nnn) => t.pc.toNat = nnn.toNat
    | .instr (.jpV0 nnn) => t.pc.toNat = nnn.toNat + (getV s 0).toNat
    | .instr .ret => stackAt s (s.sp.toNat - 1) = some t.pc
    | .instr i => t.pc = s.pc + 2 ∨ (isSkip i = true ∧ t.pc = s.pc + 4)
    | .rejected _ => t.pc = s.pc + 2

/-! Whole-machine rules: who writes what. -/

/-- 10 R23: an instruction writes no general register but those the rule lists for it. -/
def Obligations.OnlyTheListedRegistersAreWritten : Prop :=
  ∀ (i : Instr) (s t : State), exec i s = .next t → ∀ r : Nibble, r ∉ writes i → getV t r = getV s r

/-- 10 R30, which the spec derives from 40 R101 and R103: only 2nnn writes a stack entry, Stack[SP]; SP moves only
by 2nnn (up by 1) and 00EE (down by 1), and Stack is never written by 00EE. -/
def Obligations.OnlyCallAndRetUseTheStack : Prop :=
  ∀ (i : Instr) (s t : State), exec i s = .next t →
    (t.stack ≠ s.stack → ∃ nnn : Addr12, i = .call nnn) ∧
    (∀ j : Nat, j ≠ s.sp.toNat → stackAt t j = stackAt s j) ∧
    (t.sp ≠ s.sp → (∃ nnn : Addr12, i = .call nnn ∧ t.sp.toNat = s.sp.toNat + 1) ∨
      (i = .ret ∧ t.sp.toNat + 1 = s.sp.toNat))

/-- 10 R29, which the spec derives from 42 R160 and R161 (decision D11): only Annn and Fx29 write I, and every value
they write is at most 0xFFF. -/
def Obligations.OnlyTwoInstructionsWriteI : Prop :=
  ∀ (i : Instr) (s t : State), exec i s = .next t → t.i ≠ s.i →
    ((∃ nnn : Addr12, i = .ldI nnn) ∨ ∃ x : Nibble, i = .ldFVx x) ∧ t.i.toNat ≤ 0xFFF

/-- 10 R34: of all the instructions only Fx33 and Fx55 write memory, and only at I..I+2 and I..I+x, below N. -/
def Obligations.OnlyTwoInstructionsWriteMemory : Prop :=
  ∀ (i : Instr) (s t : State) (a : Nat), exec i s = .next t → readByte t a ≠ readByte s a →
    a < s.params.memSize ∧ s.i.toNat ≤ a ∧
      ((∃ x : Nibble, i = .ldBVx x ∧ a ≤ s.i.toNat + 2) ∨ ∃ x : Nibble, i = .ldMemVx x ∧ a ≤ s.i.toNat + x.toNat)

/-- 43 R186, 10 R31 (spec decisions D20, D25): no transition ticks. DT changes only by an Fx15 and ST only by an
Fx18, each to a register's value; a step whose fetch fails and a transition from WaitKey or Faulted change neither.
-/
def Obligations.StepNeverTicks : Prop :=
  (∀ s t : State, s.run ≠ .ready → step s = .next t → t.dt = s.dt ∧ t.st = s.st) ∧
  (∀ (s t : State) (info : Nat), s.run = .ready → fetch s = .outOfBounds info → step s = .next t →
    t.dt = s.dt ∧ t.st = s.st) ∧
  ∀ (s t : State) (w : Word), s.run = .ready → fetch s = .word w → step s = .next t →
    (t.dt = s.dt ∨ ∃ x : Nibble, decodeWord w = .instr (.ldDtVx x) ∧ t.dt = getV s x) ∧
    (t.st = s.st ∨ ∃ x : Nibble, decodeWord w = .instr (.ldStVx x) ∧ t.st = getV s x)

/-- 10 R31 (spec decision D25): no instruction reads ST. Two states that differ in ST only make transitions that
differ in ST only. -/
def Obligations.NoInstructionReadsSt : Prop :=
  ∀ (s t : State) (b : Byte), step s = .next t →
    ∃ u : State, step { s with st := b } = .next u ∧ { u with st := t.st } = t

/-- 44 R208: two runs of an instruction that differ in the ports' answers only, and do not fault, differ only in the
ports and in what the instruction writes from an answer: its destination registers, PC for a key skip, the
framebuffer for a display instruction, and RUN and the returned value for Fx0A (whether a key came is an answer).
Every other field is named here. An instruction that calls no port ends in the same state. -/
def Obligations.PortAnswersReachOnlyTheirInstruction : Prop :=
  ∀ (i : Instr) (s t u : State) (p : Ports), exec i s = .next t → exec i { s with ports := p } = .next u →
    t.run ≠ .faulted → u.run ≠ .faulted →
    (∀ r : Nibble, r ∉ writes i → getV u r = getV t r) ∧ u.i = t.i ∧ u.sp = t.sp ∧ u.stack = t.stack ∧
    u.dt = t.dt ∧ u.st = t.st ∧ u.mem = t.mem ∧ u.params = t.params ∧ u.fault = t.fault ∧ u.unk = t.unk ∧
    u.unkAddr = t.unkAddr ∧ u.unkOp = t.unkOp ∧ u.waitX = t.waitX ∧ u.waitAddr = t.waitAddr ∧
    u.undoX = t.undoX ∧ u.undoAddr = t.undoAddr ∧
    ((∀ x : Nibble, i ≠ .skp x ∧ i ≠ .sknp x) → u.pc = t.pc) ∧
    ((∀ x : Nibble, i ≠ .ldVxK x) → u.run = t.run ∧ u.ret = t.ret) ∧
    ((∀ x y n : Nibble, i ≠ .drw x y n) → i ≠ .cls → u.fb = t.fb) ∧
    (callsPort i = false → u = { t with ports := p })

/-! Control flow (40). -/

/-- 40 R102, R108: JP and JP V0 go to their targets, exact, and change nothing else. A target outside memory faults
at the next fetch. -/
def Obligations.JumpsGoToTheirTargets : Prop :=
  ∀ (s : State) (nnn : Addr12),
    decodeWord (0x1#4 ++ nnn) = .instr (.jp nnn) ∧ decodeWord (0xB#4 ++ nnn) = .instr (.jpV0 nnn) ∧
    (∃ t : State, exec (.jp nnn) s = .next t ∧ t.pc.toNat = nnn.toNat ∧ SameBut [] 0 0 { s with pc := t.pc } t) ∧
    (∃ t : State, exec (.jpV0 nnn) s = .next t ∧ t.pc.toNat = nnn.toNat + (getV s 0).toNat ∧
      SameBut [] 0 0 { s with pc := t.pc } t) ∧
    (s.run = .ready → s.params.memSize ≤ nnn.toNat + 1 → ∃ t u : State, exec (.jp nnn) s = .next t ∧
      step t = .next u ∧ u.run = .faulted ∧ causeCode u.fault.cause = 1 ∧ u.fault.addr.toNat = nnn.toNat) ∧
    (s.run = .ready → s.params.memSize ≤ nnn.toNat + (getV s 0).toNat + 1 → ∃ t u : State,
      exec (.jpV0 nnn) s = .next t ∧ step t = .next u ∧ u.run = .faulted ∧ causeCode u.fault.cause = 1 ∧
      u.fault.addr.toNat = nnn.toNat + (getV s 0).toNat)

/-- 40 R103: CALL pushes the advanced PC and jumps; with SP = 16 it raises StackOverflow. -/
def Obligations.CallPushesAndJumps : Prop :=
  ∀ (s : State) (nnn : Addr12),
    decodeWord (0x2#4 ++ nnn) = .instr (.call nnn) ∧
    (s.sp.toNat < 16 → ∃ t : State, exec (.call nnn) s = .next t ∧ stackAt t s.sp.toNat = some s.pc ∧
      (∀ j : Nat, j ≠ s.sp.toNat → stackAt t j = stackAt s j) ∧ t.sp.toNat = s.sp.toNat + 1 ∧
      t.pc.toNat = nnn.toNat ∧ SameBut [] 0 0 { s with stack := t.stack, sp := t.sp, pc := t.pc } t) ∧
    (16 ≤ s.sp.toNat → ∃ t : State, exec (.call nnn) s = .next t ∧ Trapped .stackOverflow (.call nnn) 0 s t)

/-- 40 R101: RET pops; with SP = 0 it raises StackUnderflow. -/
def Obligations.RetPopsTheReturnAddress : Prop :=
  ∀ s : State, decodeWord 0x00EE = .instr .ret ∧
    (∀ target : Word, 1 ≤ s.sp.toNat → stackAt s (s.sp.toNat - 1) = some target → ∃ t : State,
      exec .ret s = .next t ∧ t.sp.toNat = s.sp.toNat - 1 ∧ t.pc = target ∧
      SameBut [] 0 0 { s with sp := t.sp, pc := t.pc } t) ∧
    (s.sp.toNat ≤ 16 → 1 ≤ s.sp.toNat → ∃ target : Word, stackAt s (s.sp.toNat - 1) = some target) ∧
    (s.sp.toNat = 0 → ∃ t : State, exec .ret s = .next t ∧ Trapped .stackUnderflow .ret 0 s t)

/-- The model's choice (log 13): with SP above 16, where Stack[SP-1] does not exist, RET stops the model. No run
reaches such a state (EveryStepKeepsTheInvariant). -/
def Obligations.RetStopsWhereTheStackHasNoEntry : Prop :=
  ∀ s : State, 16 < s.sp.toNat → exec .ret s = .fault .spOutOfRange

/-- 95 L1-5c: a CALL in Ready at a, and later a RET at the same depth with that entry, comes back to a + 2. -/
def Obligations.RetComesBackAfterTheCall : Prop :=
  ∀ (s t u : State) (nnn : Addr12), s.run = .ready → fetch s = .word (0x2#4 ++ nnn) → s.sp.toNat < 16 →
    step s = .next t → u.sp = t.sp → stackAt u s.sp.toNat = stackAt t s.sp.toNat →
    ∃ r : State, exec .ret u = .next r ∧ r.pc = s.pc + 2 ∧ r.sp = s.sp

/-- 40 R100, R104, R105: the skips on an immediate. -/
def Obligations.ImmediateSkips : Prop :=
  ∀ (s : State) (x : Nibble) (kk : Byte),
    decodeWord (0x3#4 ++ x ++ kk) = .instr (.seImm x kk) ∧ decodeWord (0x4#4 ++ x ++ kk) = .instr (.sneImm x kk) ∧
    (∃ t : State, exec (.seImm x kk) s = .next t ∧
      t.pc.toNat = (if getV s x = kk then (s.pc.toNat + 2) % 0x10000 else s.pc.toNat) ∧
      SameBut [] 0 0 { s with pc := t.pc } t) ∧
    (∃ t : State, exec (.sneImm x kk) s = .next t ∧
      t.pc.toNat = (if getV s x = kk then s.pc.toNat else (s.pc.toNat + 2) % 0x10000) ∧
      SameBut [] 0 0 { s with pc := t.pc } t)

/-- 40 R106, R107: the skips on two registers, and the Unknown words beside them. -/
def Obligations.RegisterSkips : Prop :=
  ∀ (s : State) (x y n : Nibble),
    decodeWord (0x5#4 ++ x ++ y ++ n) =
      (if n = 0 then .instr (.seReg x y) else .rejected (.unknown (0x5#4 ++ x ++ y ++ n))) ∧
    decodeWord (0x9#4 ++ x ++ y ++ n) =
      (if n = 0 then .instr (.sneReg x y) else .rejected (.unknown (0x9#4 ++ x ++ y ++ n))) ∧
    (∃ t : State, exec (.seReg x y) s = .next t ∧
      t.pc.toNat = (if getV s x = getV s y then (s.pc.toNat + 2) % 0x10000 else s.pc.toNat) ∧
      SameBut [] 0 0 { s with pc := t.pc } t) ∧
    (∃ t : State, exec (.sneReg x y) s = .next t ∧
      t.pc.toNat = (if getV s x = getV s y then s.pc.toNat else (s.pc.toNat + 2) % 0x10000) ∧
      SameBut [] 0 0 { s with pc := t.pc } t)

/-! ALU (41). -/

/-- 41 R131, R132: loads and adds of an immediate; VF is written only as destination. -/
def Obligations.ImmediateLoadAndAdd : Prop :=
  ∀ (s : State) (x : Nibble) (kk : Byte),
    decodeWord (0x6#4 ++ x ++ kk) = .instr (.ldImm x kk) ∧ decodeWord (0x7#4 ++ x ++ kk) = .instr (.addImm x kk) ∧
    (∃ t : State, exec (.ldImm x kk) s = .next t ∧ getV t x = kk ∧ SameBut [x] 0 0 s t) ∧
    (∃ t : State, exec (.addImm x kk) s = .next t ∧ (getV t x).toNat = ((getV s x).toNat + kk.toNat) % 256 ∧
      SameBut [x] 0 0 s t)

/-- 41 R133 to R136: moves and logic write Vx and no flag. -/
def Obligations.MovesAndLogic : Prop :=
  ∀ (s : State) (x y : Nibble),
    decodeWord (0x8#4 ++ x ++ y ++ 0x0#4) = .instr (.ldReg x y) ∧
    decodeWord (0x8#4 ++ x ++ y ++ 0x1#4) = .instr (.orReg x y) ∧
    decodeWord (0x8#4 ++ x ++ y ++ 0x2#4) = .instr (.andReg x y) ∧
    decodeWord (0x8#4 ++ x ++ y ++ 0x3#4) = .instr (.xorReg x y) ∧
    (∃ t : State, exec (.ldReg x y) s = .next t ∧ getV t x = getV s y ∧ SameBut [x] 0 0 s t) ∧
    (∃ t : State, exec (.orReg x y) s = .next t ∧ SameBut [x] 0 0 s t ∧
      ∀ b : Nat, (getV t x).getLsbD b = ((getV s x).getLsbD b || (getV s y).getLsbD b)) ∧
    (∃ t : State, exec (.andReg x y) s = .next t ∧ SameBut [x] 0 0 s t ∧
      ∀ b : Nat, (getV t x).getLsbD b = ((getV s x).getLsbD b && (getV s y).getLsbD b)) ∧
    (∃ t : State, exec (.xorReg x y) s = .next t ∧ SameBut [x] 0 0 s t ∧
      ∀ b : Nat, (getV t x).getLsbD b = ((getV s x).getLsbD b ^^ (getV s y).getLsbD b))

/-- 41 R138, R145: ADD with carry; for x = F the sum stays, and the operands are the values before. -/
def Obligations.AddWritesCarryThenSum : Prop :=
  ∀ (s : State) (x y : Nibble),
    decodeWord (0x8#4 ++ x ++ y ++ 0x4#4) = .instr (.addReg x y) ∧
    ∃ t : State, exec (.addReg x y) s = .next t ∧
      (getV t x).toNat = ((getV s x).toNat + (getV s y).toNat) % 256 ∧
      (x ≠ 0xF → getV t 0xF = if 256 ≤ (getV s x).toNat + (getV s y).toNat then 1 else 0) ∧
      SameBut [x, 0xF] 0 0 s t

/-- 41 R139, R141: the two subtractions, the flag strict; for x = F the difference stays. -/
def Obligations.SubtractionsWriteStrictFlag : Prop :=
  ∀ (s : State) (x y : Nibble),
    decodeWord (0x8#4 ++ x ++ y ++ 0x5#4) = .instr (.subReg x y) ∧
    decodeWord (0x8#4 ++ x ++ y ++ 0x7#4) = .instr (.subnReg x y) ∧
    (∃ t : State, exec (.subReg x y) s = .next t ∧
      (getV t x).toNat = ((getV s x).toNat + 256 - (getV s y).toNat) % 256 ∧
      (x ≠ 0xF → getV t 0xF = if (getV s y).toNat < (getV s x).toNat then 1 else 0) ∧ SameBut [x, 0xF] 0 0 s t) ∧
    (∃ t : State, exec (.subnReg x y) s = .next t ∧
      (getV t x).toNat = ((getV s y).toNat + 256 - (getV s x).toNat) % 256 ∧
      (x ≠ 0xF → getV t 0xF = if (getV s x).toNat < (getV s y).toNat then 1 else 0) ∧ SameBut [x, 0xF] 0 0 s t)

/-- 41 R140, R142: the shifts of Vx by one, the flag the bit shifted out; for x = F the shifted value stays. -/
def Obligations.ShiftsWriteTheBitShiftedOut : Prop :=
  ∀ (s : State) (x y : Nibble),
    decodeWord (0x8#4 ++ x ++ y ++ 0x6#4) = .instr (.shr x) ∧
    decodeWord (0x8#4 ++ x ++ y ++ 0xE#4) = .instr (.shl x) ∧
    (∃ t : State, exec (.shr x) s = .next t ∧ (getV t x).toNat = (getV s x).toNat / 2 ∧
      (x ≠ 0xF → (getV t 0xF).toNat = (getV s x).toNat % 2) ∧ SameBut [x, 0xF] 0 0 s t) ∧
    (∃ t : State, exec (.shl x) s = .next t ∧ (getV t x).toNat = (getV s x).toNat * 2 % 256 ∧
      (x ≠ 0xF → (getV t 0xF).toNat = (getV s x).toNat / 128) ∧ SameBut [x, 0xF] 0 0 s t)

/-- 41 R143 (spec decision D21): RND takes one answer r of the Random Source, whatever kk, and writes r AND kk. -/
def Obligations.RandomTakesOneAnswer : Prop :=
  ∀ (s : State) (x : Nibble) (kk : Byte),
    decodeWord (0xC#4 ++ x ++ kk) = .instr (.rnd x kk) ∧
    ∃ t : State, exec (.rnd x kk) s = .next t ∧
      (∀ b : Nat, (getV t x).getLsbD b = ((takeRandom s).1.getLsbD b && kk.getLsbD b)) ∧
      SameBut [x] 0 0 { s with ports := (takeRandom s).2.ports } t ∧
      (kk = 0 → getV t x = 0) ∧ (kk = 0xFF → getV t x = (takeRandom s).1)

/-- 00 R8, log 7: each port's answer is the next one its list gives, which is taken off; with the list empty it is
a free value and the counter advances. No port's answer touches another's list. -/
def Obligations.PortsAnswerFromTheirListsOrFreely : Prop :=
  ∀ s : State,
    (∀ (b : Byte) (rest : List Byte), s.ports.random = b :: rest →
      takeRandom s = (b, { s with ports := { s.ports with random := rest } })) ∧
    (∀ (a : KeyAnswer) (rest : List KeyAnswer), s.ports.keyDown = a :: rest →
      takeKeyDown s = (a, { s with ports := { s.ports with keyDown := rest } })) ∧
    (∀ (a : WaitAnswer) (rest : List WaitAnswer), s.ports.keyWait = a :: rest →
      takeKeyWait s = (a, { s with ports := { s.ports with keyWait := rest } })) ∧
    (∀ (a : SinkAnswer) (rest : List SinkAnswer), s.ports.display = a :: rest →
      takeSink s = (a, { s with ports := { s.ports with display := rest } })) ∧
    (s.ports.random = [] → takeRandom s =
      (Config.freeRandom s.ports.draws, { s with ports := { s.ports with draws := s.ports.draws + 1 } })) ∧
    (s.ports.keyDown = [] → takeKeyDown s =
      (Config.freeKeyDown s.ports.draws, { s with ports := { s.ports with draws := s.ports.draws + 1 } })) ∧
    (s.ports.keyWait = [] → takeKeyWait s =
      (Config.freeKeyWait s.ports.draws, { s with ports := { s.ports with draws := s.ports.draws + 1 } })) ∧
    (s.ports.display = [] → takeSink s =
      (Config.freeSink s.ports.draws, { s with ports := { s.ports with draws := s.ports.draws + 1 } }))

/-! Index register and memory transfers (42). -/

/-- 42 R160, R161: Annn and Fx29 set I, unchecked and unmasked (the missing mask is the spec's decision D15;
that nothing else writes I is 10 R29). -/
def Obligations.IndexRegisterIsSet : Prop :=
  ∀ (s : State) (nnn : Addr12) (x : Nibble),
    decodeWord (0xA#4 ++ nnn) = .instr (.ldI nnn) ∧ decodeWord (0xF#4 ++ x ++ 0x29#8) = .instr (.ldFVx x) ∧
    (∃ t : State, exec (.ldI nnn) s = .next t ∧ t.i.toNat = nnn.toNat ∧ SameBut [] 0 0 { s with i := t.i } t) ∧
    (∃ t : State, exec (.ldFVx x) s = .next t ∧ t.i.toNat = (getV s x).toNat * 5 ∧
      SameBut [] 0 0 { s with i := t.i } t)

/-- 10 R43: after a construction row r of glyph d is the font's byte 5d + r, and Fx29 with Vx = d points I there. -/
def Obligations.FontGlyphsAreWhereFx29Points : Prop :=
  ∀ (p : Params) (s : State) (x : Nibble) (r : Nat) (hr : r < 5) (hd : (getV s x).toNat < 16),
    ∃ t : State, exec (.ldFVx x) s = .next t ∧ t.i.toNat = 5 * (getV s x).toNat ∧
      readByte (State.construct p) (t.i.toNat + r) = p.font[5 * (getV s x).toNat + r]

/-- 42 R162 (spec decision D29 for the check): Fx33 stores the three digits, or faults before any write if I + 2 ≥
N. -/
def Obligations.DecimalStore : Prop :=
  ∀ (s : State) (x : Nibble), Memory.wf s.params s.mem = true →
    decodeWord (0xF#4 ++ x ++ 0x33#8) = .instr (.ldBVx x) ∧
    (s.i.toNat + 2 < s.params.memSize → ∃ t : State, exec (.ldBVx x) s = .next t ∧
      (readByte t s.i.toNat).toNat = (getV s x).toNat / 100 ∧
      (readByte t (s.i.toNat + 1)).toNat = (getV s x).toNat / 10 % 10 ∧
      (readByte t (s.i.toNat + 2)).toNat = (getV s x).toNat % 10 ∧ SameBut [] s.i.toNat 3 s t) ∧
    (s.params.memSize ≤ s.i.toNat + 2 → ∃ t : State, exec (.ldBVx x) s = .next t ∧
      Trapped .outOfBoundsData (.ldBVx x) (max s.i.toNat s.params.memSize) s t)

/-- 42 R163 (spec decisions D11, D29): Fx55 stores V0..Vx from I up, I unchanged, or faults before any write if I +
x ≥ N. -/
def Obligations.BlockStore : Prop :=
  ∀ (s : State) (x : Nibble), Memory.wf s.params s.mem = true →
    decodeWord (0xF#4 ++ x ++ 0x55#8) = .instr (.ldMemVx x) ∧
    (s.i.toNat + x.toNat < s.params.memSize → ∃ t : State, exec (.ldMemVx x) s = .next t ∧
      (∀ k : Nibble, k ≤ x → readByte t (s.i.toNat + k.toNat) = getV s k) ∧
      SameBut [] s.i.toNat (x.toNat + 1) s t) ∧
    (s.params.memSize ≤ s.i.toNat + x.toNat → ∃ t : State, exec (.ldMemVx x) s = .next t ∧
      Trapped .outOfBoundsData (.ldMemVx x) (max s.i.toNat s.params.memSize) s t)

/-- 42 R164 (spec decisions D11, D29): Fx65 loads V0..Vx from I up, I and the registers above x unchanged, or
faults before any read if I + x ≥ N. -/
def Obligations.BlockLoad : Prop :=
  ∀ (s : State) (x : Nibble),
    decodeWord (0xF#4 ++ x ++ 0x65#8) = .instr (.ldVxMem x) ∧
    (s.i.toNat + x.toNat < s.params.memSize → ∃ t : State, exec (.ldVxMem x) s = .next t ∧
      (∀ k : Nibble, k ≤ x → getV t k = readByte s (s.i.toNat + k.toNat)) ∧
      (∀ k : Nibble, x < k → getV t k = getV s k) ∧ SameBut (writes (.ldVxMem x)) 0 0 s t) ∧
    (s.params.memSize ≤ s.i.toNat + x.toNat → ∃ t : State, exec (.ldVxMem x) s = .next t ∧
      Trapped .outOfBoundsData (.ldVxMem x) (max s.i.toNat s.params.memSize) s t)

/-- 95 IM-17: an Fx55 and then an Fx65, with I and memory as the store left them, gives back V0..Vx, whatever the
registers held in between. -/
def Obligations.BlockStoreThenLoadRoundTrips : Prop :=
  ∀ (s t u : State) (x : Nibble), Memory.wf s.params s.mem = true → s.run = .ready →
    exec (.ldMemVx x) s = .next t → t.run = .ready →
    u.i = t.i → u.mem = t.mem → u.params = t.params → u.run = .ready →
    ∃ r : State, exec (.ldVxMem x) u = .next r ∧ r.run = .ready ∧ ∀ k : Nibble, k ≤ x → getV r k = getV s k

/-- 20 R66, which the spec derives from R63 and R69: what an Fx55 or an Fx33 stores at the next instruction's
address is what the next fetch reads, be it both bytes of the word, one of them or none. The range check is the
spec's decision D29, the fetch's byte order its D2. -/
def Obligations.StoresAreSeenByTheNextFetch : Prop :=
  ∀ (s t : State) (x : Nibble), Memory.wf s.params s.mem = true → s.run = .ready →
    s.pc.toNat + 1 < s.params.memSize → t.run = .ready →
    (exec (.ldMemVx x) s = .next t →
      fetch t = .word (byteAfterFx55 s x s.pc.toNat ++ byteAfterFx55 s x (s.pc.toNat + 1))) ∧
    (exec (.ldBVx x) s = .next t →
      fetch t = .word (byteAfterFx33 s x s.pc.toNat ++ byteAfterFx33 s x (s.pc.toNat + 1)))

/-! Timers (43). -/

/-- 43 R180, R181, R182: the three timer instructions. That ST has no effect a program sees is the spec's decision
D25. -/
def Obligations.TimerInstructions : Prop :=
  ∀ (s : State) (x : Nibble),
    decodeWord (0xF#4 ++ x ++ 0x07#8) = .instr (.ldVxDt x) ∧ decodeWord (0xF#4 ++ x ++ 0x15#8) = .instr (.ldDtVx x) ∧
    decodeWord (0xF#4 ++ x ++ 0x18#8) = .instr (.ldStVx x) ∧
    (∃ t : State, exec (.ldVxDt x) s = .next t ∧ getV t x = s.dt ∧ SameBut [x] 0 0 s t) ∧
    (∃ t : State, exec (.ldDtVx x) s = .next t ∧ t.dt = getV s x ∧ SameBut [] 0 0 { s with dt := t.dt } t) ∧
    (∃ t : State, exec (.ldStVx x) s = .next t ∧ t.st = getV s x ∧ SameBut [] 0 0 { s with st := t.st } t)

/-- 43 R183, which the spec derives from R180 and R181: an Fx15 and then an Fy07 gives V[y] the value of V[x]. -/
def Obligations.DelayTimerRoundTripIsLossless : Prop :=
  ∀ (s t u : State) (x y : Nibble), exec (.ldDtVx x) s = .next t → exec (.ldVxDt y) t = .next u →
    getV u y = getV s x

/-- 43 R185: a tick takes 1 from each timer that is not 0, writes nothing else, and never fails. -/
def Obligations.TickDecrementsBothTimers : Prop :=
  ∀ s : State, ∃ t : State, driverCall .tick s = .next t ∧ t.dt.toNat = s.dt.toNat - 1 ∧
    t.st.toNat = s.st.toNat - 1 ∧ SameBut [] 0 0 { s with dt := t.dt, st := t.st } t

/-! Display and keys (44). -/

/-- 44 R203: CLS clears the reference display (the spec's decision D18; which display is log 9), VF not written; a
failed sink is BackendError, the core as before and the framebuffer any (the spec's decision D28, log 8). -/
def Obligations.ClearTheDisplay : Prop :=
  ∀ s : State, decodeWord 0x00E0 = .instr .cls ∧
    (∀ c : Bool, s.params.sink = .reference → (takeSink s).1 = .done c → ∃ t : State, exec .cls s = .next t ∧
      (∀ q : Nat, Frame.isSet t.fb q = false) ∧
      SameBut [] 0 0 { s with fb := t.fb, ports := (takeSink s).2.ports } t) ∧
    ((takeSink s).1 = .backendError → ∃ t : State, exec .cls s = .next t ∧
      Trapped .backendError .cls 0 { s with fb := t.fb, ports := t.ports } t)

/-- 44 R202 (spec decisions D16, D17, D18, D29): DRW on the reference sink: the rows at I..I+n-1 are blitted at
(Vx, Vy) by setSprite, VF is the collision; an out-of-range row is a fault before the sink is called; a failed sink
is BackendError, VF unchanged. -/
def Obligations.DrawASprite : Prop :=
  ∀ (s : State) (x y n : Nibble),
    decodeWord (0xD#4 ++ x ++ y ++ n) = .instr (.drw x y n) ∧
    (∀ c : Bool, s.params.sink = .reference → (takeSink s).1 = .done c →
      (n = 0 ∨ s.i.toNat + n.toNat ≤ s.params.memSize) →
      ∃ t : State, exec (.drw x y n) s = .next t ∧
        t.fb = (setSprite s.params (getV s x).toNat (getV s y).toNat
          ((List.range n.toNat).map (fun r => readByte s (s.i.toNat + r))) s.fb).1 ∧
        getV t 0xF = (if (setSprite s.params (getV s x).toNat (getV s y).toNat
          ((List.range n.toNat).map (fun r => readByte s (s.i.toNat + r))) s.fb).2 then 1 else 0) ∧
        SameBut [0xF] 0 0 { s with fb := t.fb, ports := (takeSink s).2.ports } t) ∧
    (n ≠ 0 → s.params.memSize < s.i.toNat + n.toNat → ∃ t : State, exec (.drw x y n) s = .next t ∧
      Trapped .outOfBoundsData (.drw x y n) (max s.i.toNat s.params.memSize) s t) ∧
    ((takeSink s).1 = .backendError → (n = 0 ∨ s.i.toNat + n.toNat ≤ s.params.memSize) →
      ∃ t : State, exec (.drw x y n) s = .next t ∧
        Trapped .backendError (.drw x y n) 0 { s with fb := t.fb, ports := t.ports } t)

/-- 44 R201, R202 (spec decisions D17, D18): setSprite on every display 00 R7 allows. A pixel is turned over once
for each setPixel whose bit is set there (bit 7 leftmost, coordinates wrapped), so its end value goes by their
parity; the collision says whether some setPixel with its bit set met a set pixel, the earlier ones counted. On a
display at least 8 wide and as high as the sprite no pixel is met twice: each is XORed once, no other changes, and
the collision is read off the old picture. -/
def Obligations.SpriteIsXoredPixelByPixel : Prop :=
  ∀ (p : Params) (x y : Nat) (rows : List Byte) (fb : Frame), Frame.rising fb = true →
    1 ≤ p.displayW → 1 ≤ p.displayH →
    (∀ q : Nat, Frame.isSet (setSprite p x y rows fb).1 q = pixelAfter p x y rows fb q (8 * rows.length)) ∧
    ((setSprite p x y rows fb).2 = true ↔ ∃ k q : Nat, k < 8 * rows.length ∧ turnsOver p x y rows q k = true ∧
      pixelAfter p x y rows fb q k = true) ∧
    (8 ≤ p.displayW → rows.length ≤ p.displayH →
      (∀ (r b : Nat) (hr : r < rows.length), b < 8 →
        Frame.isSet (setSprite p x y rows fb).1 (spritePixel p x y r b) =
          (Frame.isSet fb (spritePixel p x y r b) ^^ rows[r].getLsbD (7 - b))) ∧
      (∀ q : Nat, (∀ r b : Nat, r < rows.length → b < 8 → q ≠ spritePixel p x y r b) →
        Frame.isSet (setSprite p x y rows fb).1 q = Frame.isSet fb q) ∧
      ((setSprite p x y rows fb).2 = true ↔ ∃ (r b : Nat) (hr : r < rows.length), b < 8 ∧
        rows[r].getLsbD (7 - b) = true ∧ Frame.isSet fb (spritePixel p x y r b) = true))

/-- 44 R209 (spec decisions D16, D17): drawing the same sprite twice at the same place gives the framebuffer back,
and from a clear one the second draw sets VF if the sprite has a set bit. x and y are not F, since the first draw
writes VF. -/
def Obligations.DrawingTwiceErasesAndCollides : Prop :=
  ∀ (s t u : State) (x y n : Nibble), s.params.sink = .reference → Frame.rising s.fb = true → x ≠ 0xF → y ≠ 0xF →
    exec (.drw x y n) s = .next t → t.run ≠ .faulted → exec (.drw x y n) t = .next u → u.run ≠ .faulted →
    u.fb = s.fb ∧
    (s.fb = [] → (∃ k : Nat, k < n.toNat ∧ readByte s (s.i.toNat + k) ≠ 0) → getV u 0xF = 1)

/-- 00 R8, 44 R201 (spec decisions D18, D21): with an external sink the collision is the sink's answer, and the state
holds no frame of it. That this holds for n = 0 too, where 44 R209 says VF = 0, is the model's choice (log 9). -/
def Obligations.ExternalSinkAnswersTheCollision : Prop :=
  ∀ (s : State) (x y n : Nibble) (c : Bool), s.params.sink = .external → (takeSink s).1 = .done c →
    (n = 0 ∨ s.i.toNat + n.toNat ≤ s.params.memSize) →
    (∃ t : State, exec (.drw x y n) s = .next t ∧ getV t 0xF = (if c then 1 else 0) ∧
      SameBut [0xF] 0 0 { s with ports := (takeSink s).2.ports } t) ∧
    ∃ t : State, exec .cls s = .next t ∧ SameBut [] 0 0 { s with ports := (takeSink s).2.ports } t

/-- 44 R204, R205: the key skips; a key above 15 faults before the port is called (the spec's decision D14).
That FAULT_INFO is the key then, as 60 R231 says and 10 R33's table does not, is the model's choice (log 22). -/
def Obligations.KeySkips : Prop :=
  ∀ (s : State) (x : Nibble),
    decodeWord (0xE#4 ++ x ++ 0x9E#8) = .instr (.skp x) ∧ decodeWord (0xE#4 ++ x ++ 0xA1#8) = .instr (.sknp x) ∧
    (∀ d : Bool, (getV s x).toNat ≤ 15 → (takeKeyDown s).1 = .held d →
      (∃ t : State, exec (.skp x) s = .next t ∧ t.pc = (if d then s.pc + 2 else s.pc) ∧
        SameBut [] 0 0 { s with pc := t.pc, ports := (takeKeyDown s).2.ports } t) ∧
      ∃ t : State, exec (.sknp x) s = .next t ∧ t.pc = (if d then s.pc else s.pc + 2) ∧
        SameBut [] 0 0 { s with pc := t.pc, ports := (takeKeyDown s).2.ports } t) ∧
    (15 < (getV s x).toNat →
      (∃ t : State, exec (.skp x) s = .next t ∧ Trapped .keyOutOfRange (.skp x) (getV s x).toNat s t) ∧
      ∃ t : State, exec (.sknp x) s = .next t ∧ Trapped .keyOutOfRange (.sknp x) (getV s x).toNat s t) ∧
    ((getV s x).toNat ≤ 15 → (takeKeyDown s).1 = .backendError →
      (∃ t : State, exec (.skp x) s = .next t ∧ Trapped .backendError (.skp x) 0 { s with ports := t.ports } t) ∧
      ∃ t : State, exec (.sknp x) s = .next t ∧ Trapped .backendError (.sknp x) 0 { s with ports := t.ports } t)

/-- 44 R206 (spec decision D19): Fx0A. A key at once: V[x] is the key and the core is Ready. No key yet: the core
waits with PC = a + 2. A failure: BackendError, V and the wait's record as before. What a completed wait leaves in
WAIT_X and WAIT_ADDR, and the undo fields, are log 10 and 11. -/
def Obligations.WaitForAKey : Prop :=
  ∀ (s : State) (x : Nibble),
    decodeWord (0xF#4 ++ x ++ 0x0A#8) = .instr (.ldVxK x) ∧
    (∀ k : Nibble, (takeKeyWait s).1 = .pressed k → ∃ t : State, exec (.ldVxK x) s = .next t ∧
      (getV t x).toNat = k.toNat ∧ t.run = .ready ∧ t.ret = .ok ∧
      SameBut [x] 0 0 { s with run := t.run, waitX := t.waitX, waitAddr := t.waitAddr, undoX := t.undoX,
                               undoAddr := t.undoAddr, ports := (takeKeyWait s).2.ports, ret := t.ret } t) ∧
    ((takeKeyWait s).1 = .noKeyYet → ∃ t : State, exec (.ldVxK x) s = .next t ∧
      t.run = .waitKey ∧ t.waitX = x ∧ t.waitAddr = s.pc - 2 ∧ t.ret = .notYet ∧
      SameBut [] 0 0 { s with run := t.run, waitX := t.waitX, waitAddr := t.waitAddr, undoX := t.undoX,
                              undoAddr := t.undoAddr, ports := (takeKeyWait s).2.ports, ret := t.ret } t) ∧
    ((takeKeyWait s).1 = .backendError → ∃ t : State, exec (.ldVxK x) s = .next t ∧
      Trapped .backendError (.ldVxK x) 0
        { s with undoX := t.undoX, undoAddr := t.undoAddr, ports := (takeKeyWait s).2.ports } t)

/-- 44 R206, 10 R35 (spec decision D19): a wait that goes on. A key ends it with V[WAIT_X] the key; a failure ends
it with PC = WAIT_ADDR and V unchanged; no key leaves everything but the port's script as it is. The model's
choices: one look at the Key Source in a transition (log 10); WAIT_X and WAIT_ADDR stay after a key and get back
what they held before the Fx0A after a failure (log 11); DT and ST keep the wait's ticks after a failure (log 23). -/
def Obligations.TheOpenWaitGoesOn : Prop :=
  ∀ s : State, s.run = .waitKey →
    (∀ k : Nibble, (takeKeyWait s).1 = .pressed k → ∃ t : State, driverCall .keySource s = .next t ∧
      (getV t s.waitX).toNat = k.toNat ∧ t.run = .ready ∧ t.ret = .ok ∧
      SameBut [s.waitX] 0 0 { s with run := t.run, ports := (takeKeyWait s).2.ports, ret := t.ret } t) ∧
    ((takeKeyWait s).1 = .noKeyYet → ∃ t : State, driverCall .keySource s = .next t ∧
      SameBut [] 0 0 { s with ports := (takeKeyWait s).2.ports } t) ∧
    ((takeKeyWait s).1 = .backendError → ∃ t : State, driverCall .keySource s = .next t ∧ t.run = .faulted ∧
      causeCode t.fault.cause = 6 ∧ t.pc = s.waitAddr ∧ t.fault.addr = s.waitAddr ∧
      t.fault.op = some (encode (.ldVxK s.waitX)) ∧ t.fault.info = 0 ∧
      SameBut [] 0 0 { s with pc := t.pc, run := t.run, fault := t.fault, waitX := s.undoX, waitAddr := s.undoAddr,
                              ports := (takeKeyWait s).2.ports, ret := t.ret } t)

/-- 60 R247, R248 (spec decisions D19, D20, D30): what the driver may do while a key is waited for: tick, read and
reset. A step or a load has no meaning there, and that the model refuses it by name is log 16. -/
def Obligations.DriverCallsDuringAWait : Prop :=
  ∀ s : State, s.run = .waitKey →
    driverCall .step s = .refused .stepDuringWait ∧
    (∀ (bytes : List Byte) (offset : Int), driverCall (.load bytes offset) s = .refused .loadDuringWait) ∧
    driverCall .read s = .next s ∧
    (∃ t : State, driverCall .tick s = .next t ∧ t.run = .waitKey ∧ t.waitX = s.waitX ∧ t.waitAddr = s.waitAddr ∧
      t.pc = s.pc ∧ t.dt.toNat = s.dt.toNat - 1) ∧
    ∃ t : State, driverCall .reset s = .next t ∧ t.run = .ready ∧ ∀ r : Nibble, getV t r = 0

/-! The loader and the end of a run. -/

/-- 20 R60 (spec decision D27): load checks first, then copies; on failure nothing is written. -/
def Obligations.LoaderChecksThenCopies : Prop :=
  ∀ (s : State) (bytes : List Byte) (offset : Int), Memory.wf s.params s.mem = true →
    (∀ base : Nat, offset = base → base + bytes.length ≤ s.params.memSize →
      (load bytes offset s).1 = .ok ∧
      (∀ (k : Nat) (h : k < bytes.length), readByte (load bytes offset s).2 (base + k) = bytes[k]) ∧
      SameBut [] base bytes.length s (load bytes offset s).2) ∧
    (offset < 0 ∨ (s.params.memSize : Int) < offset + bytes.length → load bytes offset s = (.outOfBounds, s))

/-- 70 R280 (a) (spec decision D26): a terminal state is a Ready self-jump with PC + 1 < N, and stepping it changes
nothing but what the call returns. -/
def Obligations.TerminalStatesStayPut : Prop :=
  ∀ s : State,
    (terminal s = true ↔ s.run = .ready ∧ s.pc.toNat + 1 < s.params.memSize ∧
      ∃ nnn : Addr12, nnn.toNat = s.pc.toNat ∧
        decodeWord (composeWord (readByte s s.pc.toNat) (readByte s (s.pc.toNat + 1))) = .instr (.jp nnn)) ∧
    (terminal s = true → step s = .next { s with ret := .ok })
end

