-- ==== Sys2Proof/Laws/Decode.lean ====
section
/-! SUPPORT. Laws/Decode.lean: words and fields as numbers, and the fields of a word put together from fields
(spec 30 R83, R84). -/

namespace Sys2Proof

/-- Appending as arithmetic. -/
theorem toNat_append_eq {m n : Nat} (a : BitVec m) (b : BitVec n) :
    (a ++ b).toNat = a.toNat * 2 ^ n + b.toNat := by
  rw [BitVec.toNat_append, ← Nat.shiftLeft_add_eq_or_of_lt b.isLt, Nat.shiftLeft_eq]

theorem toNat_encodeXK (op x : Nibble) (kk : Byte) :
    (encodeXK op x kk).toNat = op.toNat * 4096 + x.toNat * 256 + kk.toNat := by
  have h : (encodeXK op x kk).toNat = (op ++ x ++ kk).toNat := rfl
  rw [h, toNat_append_eq, toNat_append_eq]; omega

theorem toNat_encodeXYN (op x y n : Nibble) :
    (encodeXYN op x y n).toNat = op.toNat * 4096 + x.toNat * 256 + y.toNat * 16 + n.toNat := by
  have h : (encodeXYN op x y n).toNat = (op ++ x ++ y ++ n).toNat := rfl
  rw [h, toNat_append_eq, toNat_append_eq, toNat_append_eq]; omega

theorem toNat_encodeA (op : Nibble) (nnn : Addr12) : (encodeA op nnn).toNat = op.toNat * 4096 + nnn.toNat := by
  have h : (encodeA op nnn).toNat = (op ++ nnn).toNat := rfl
  rw [h, toNat_append_eq]; omega

theorem toNat_composeWord (high low : Byte) : (composeWord high low).toNat = high.toNat * 256 + low.toNat := by
  have h : (composeWord high low).toNat = (high ++ low).toNat := rfl
  rw [h, toNat_append_eq]; omega

theorem toNat_fieldOp (w : Word) : (fieldOp w).toNat = w.toNat / 4096 := by
  have := w.isLt
  simp [fieldOp, Nat.shiftRight_eq_div_pow]; omega

theorem toNat_fieldX (w : Word) : (fieldX w).toNat = w.toNat / 256 % 16 := by
  simp [fieldX, Nat.shiftRight_eq_div_pow]

theorem toNat_fieldY (w : Word) : (fieldY w).toNat = w.toNat / 16 % 16 := by
  simp [fieldY, Nat.shiftRight_eq_div_pow]

theorem toNat_fieldN (w : Word) : (fieldN w).toNat = w.toNat % 16 := by simp [fieldN]

theorem toNat_fieldKk (w : Word) : (fieldKk w).toNat = w.toNat % 256 := by simp [fieldKk]

theorem toNat_fieldNnn (w : Word) : (fieldNnn w).toNat = w.toNat % 4096 := by simp [fieldNnn]

@[simp] theorem fieldOp_encodeXK (op x : Nibble) (kk : Byte) : fieldOp (encodeXK op x kk) = op := by
  apply BitVec.eq_of_toNat_eq
  have := x.isLt; have := kk.isLt
  rw [toNat_fieldOp, toNat_encodeXK]; omega

@[simp] theorem fieldX_encodeXK (op x : Nibble) (kk : Byte) : fieldX (encodeXK op x kk) = x := by
  apply BitVec.eq_of_toNat_eq
  have := x.isLt; have := kk.isLt
  rw [toNat_fieldX, toNat_encodeXK]; omega

@[simp] theorem fieldKk_encodeXK (op x : Nibble) (kk : Byte) : fieldKk (encodeXK op x kk) = kk := by
  apply BitVec.eq_of_toNat_eq
  have := kk.isLt
  rw [toNat_fieldKk, toNat_encodeXK]; omega

@[simp] theorem fieldOp_encodeXYN (op x y n : Nibble) : fieldOp (encodeXYN op x y n) = op := by
  apply BitVec.eq_of_toNat_eq
  have := x.isLt; have := y.isLt; have := n.isLt
  rw [toNat_fieldOp, toNat_encodeXYN]; omega

@[simp] theorem fieldX_encodeXYN (op x y n : Nibble) : fieldX (encodeXYN op x y n) = x := by
  apply BitVec.eq_of_toNat_eq
  have := x.isLt; have := y.isLt; have := n.isLt
  rw [toNat_fieldX, toNat_encodeXYN]; omega

@[simp] theorem fieldY_encodeXYN (op x y n : Nibble) : fieldY (encodeXYN op x y n) = y := by
  apply BitVec.eq_of_toNat_eq
  have := y.isLt; have := n.isLt
  rw [toNat_fieldY, toNat_encodeXYN]; omega

@[simp] theorem fieldN_encodeXYN (op x y n : Nibble) : fieldN (encodeXYN op x y n) = n := by
  apply BitVec.eq_of_toNat_eq
  have := n.isLt
  rw [toNat_fieldN, toNat_encodeXYN]; omega

@[simp] theorem fieldOp_encodeA (op : Nibble) (nnn : Addr12) : fieldOp (encodeA op nnn) = op := by
  apply BitVec.eq_of_toNat_eq
  have := nnn.isLt
  rw [toNat_fieldOp, toNat_encodeA]; omega

@[simp] theorem fieldNnn_encodeA (op : Nibble) (nnn : Addr12) : fieldNnn (encodeA op nnn) = nnn := by
  apply BitVec.eq_of_toNat_eq
  have := nnn.isLt
  rw [toNat_fieldNnn, toNat_encodeA]; omega

/-- The two bytes of a word compose to it (20 R56). -/
theorem composeWord_wordBytes (w : Word) : composeWord (w.extractLsb' 8 8) (w.extractLsb' 0 8) = w := by
  apply BitVec.eq_of_toNat_eq
  have := w.isLt
  rw [toNat_composeWord]
  simp [Nat.shiftRight_eq_div_pow]; omega

end Sys2Proof
end

