-- ==== Sys2Proof/Laws/State.lean ====
section
/-! SUPPORT. Laws/State.lean: each field after each update of the state. -/

namespace Sys2Proof.Machine

variable (s : State)

/-! The fields after setV. -/

@[simp] theorem setV_v (x : Nibble) (b : Byte) : (setV x b s).v = s.v.set x.toNat b x.isLt := rfl
@[simp] theorem setV_i (x : Nibble) (b : Byte) : (setV x b s).i = s.i := rfl
@[simp] theorem setV_pc (x : Nibble) (b : Byte) : (setV x b s).pc = s.pc := rfl
@[simp] theorem setV_sp (x : Nibble) (b : Byte) : (setV x b s).sp = s.sp := rfl
@[simp] theorem setV_stack (x : Nibble) (b : Byte) : (setV x b s).stack = s.stack := rfl
@[simp] theorem setV_dt (x : Nibble) (b : Byte) : (setV x b s).dt = s.dt := rfl
@[simp] theorem setV_st (x : Nibble) (b : Byte) : (setV x b s).st = s.st := rfl
@[simp] theorem setV_mem (x : Nibble) (b : Byte) : (setV x b s).mem = s.mem := rfl
@[simp] theorem setV_run (x : Nibble) (b : Byte) : (setV x b s).run = s.run := rfl
@[simp] theorem setV_waitX (x : Nibble) (b : Byte) : (setV x b s).waitX = s.waitX := rfl
@[simp] theorem setV_waitAddr (x : Nibble) (b : Byte) : (setV x b s).waitAddr = s.waitAddr := rfl
@[simp] theorem setV_fault (x : Nibble) (b : Byte) : (setV x b s).fault = s.fault := rfl
@[simp] theorem setV_unk (x : Nibble) (b : Byte) : (setV x b s).unk = s.unk := rfl
@[simp] theorem setV_unkAddr (x : Nibble) (b : Byte) : (setV x b s).unkAddr = s.unkAddr := rfl
@[simp] theorem setV_unkOp (x : Nibble) (b : Byte) : (setV x b s).unkOp = s.unkOp := rfl
@[simp] theorem setV_fb (x : Nibble) (b : Byte) : (setV x b s).fb = s.fb := rfl
@[simp] theorem setV_params (x : Nibble) (b : Byte) : (setV x b s).params = s.params := rfl
@[simp] theorem setV_ports (x : Nibble) (b : Byte) : (setV x b s).ports = s.ports := rfl
@[simp] theorem setV_undoX (x : Nibble) (b : Byte) : (setV x b s).undoX = s.undoX := rfl
@[simp] theorem setV_undoAddr (x : Nibble) (b : Byte) : (setV x b s).undoAddr = s.undoAddr := rfl
@[simp] theorem setV_ret (x : Nibble) (b : Byte) : (setV x b s).ret = s.ret := rfl

/-! The fields after beginStep. -/

@[simp] theorem beginStep_v : (beginStep s).v = s.v := rfl
@[simp] theorem beginStep_i : (beginStep s).i = s.i := rfl
@[simp] theorem beginStep_pc : (beginStep s).pc = s.pc + 2 := rfl
@[simp] theorem beginStep_sp : (beginStep s).sp = s.sp := rfl
@[simp] theorem beginStep_stack : (beginStep s).stack = s.stack := rfl
@[simp] theorem beginStep_dt : (beginStep s).dt = s.dt := rfl
@[simp] theorem beginStep_st : (beginStep s).st = s.st := rfl
@[simp] theorem beginStep_mem : (beginStep s).mem = s.mem := rfl
@[simp] theorem beginStep_run : (beginStep s).run = s.run := rfl
@[simp] theorem beginStep_waitX : (beginStep s).waitX = s.waitX := rfl
@[simp] theorem beginStep_waitAddr : (beginStep s).waitAddr = s.waitAddr := rfl
@[simp] theorem beginStep_fault : (beginStep s).fault = s.fault := rfl
@[simp] theorem beginStep_unk : (beginStep s).unk = s.unk := rfl
@[simp] theorem beginStep_unkAddr : (beginStep s).unkAddr = s.unkAddr := rfl
@[simp] theorem beginStep_unkOp : (beginStep s).unkOp = s.unkOp := rfl
@[simp] theorem beginStep_fb : (beginStep s).fb = s.fb := rfl
@[simp] theorem beginStep_params : (beginStep s).params = s.params := rfl
@[simp] theorem beginStep_ports : (beginStep s).ports = s.ports := rfl
@[simp] theorem beginStep_undoX : (beginStep s).undoX = s.undoX := rfl
@[simp] theorem beginStep_undoAddr : (beginStep s).undoAddr = s.undoAddr := rfl
@[simp] theorem beginStep_ret : (beginStep s).ret = .ok := rfl

/-! The fields after skip. -/

@[simp] theorem skip_v : (skip s).v = s.v := rfl
@[simp] theorem skip_i : (skip s).i = s.i := rfl
@[simp] theorem skip_pc : (skip s).pc = s.pc + 2 := rfl
@[simp] theorem skip_sp : (skip s).sp = s.sp := rfl
@[simp] theorem skip_stack : (skip s).stack = s.stack := rfl
@[simp] theorem skip_dt : (skip s).dt = s.dt := rfl
@[simp] theorem skip_st : (skip s).st = s.st := rfl
@[simp] theorem skip_mem : (skip s).mem = s.mem := rfl
@[simp] theorem skip_run : (skip s).run = s.run := rfl
@[simp] theorem skip_waitX : (skip s).waitX = s.waitX := rfl
@[simp] theorem skip_waitAddr : (skip s).waitAddr = s.waitAddr := rfl
@[simp] theorem skip_fault : (skip s).fault = s.fault := rfl
@[simp] theorem skip_unk : (skip s).unk = s.unk := rfl
@[simp] theorem skip_unkAddr : (skip s).unkAddr = s.unkAddr := rfl
@[simp] theorem skip_unkOp : (skip s).unkOp = s.unkOp := rfl
@[simp] theorem skip_fb : (skip s).fb = s.fb := rfl
@[simp] theorem skip_params : (skip s).params = s.params := rfl
@[simp] theorem skip_ports : (skip s).ports = s.ports := rfl
@[simp] theorem skip_undoX : (skip s).undoX = s.undoX := rfl
@[simp] theorem skip_undoAddr : (skip s).undoAddr = s.undoAddr := rfl
@[simp] theorem skip_ret : (skip s).ret = s.ret := rfl

/-! The fields after skipIf. -/

@[simp] theorem skipIf_v (c : Bool) : (skipIf c s).v = s.v := by unfold skipIf; split <;> rfl
@[simp] theorem skipIf_i (c : Bool) : (skipIf c s).i = s.i := by unfold skipIf; split <;> rfl
@[simp] theorem skipIf_pc (c : Bool) : (skipIf c s).pc = if c then s.pc + 2 else s.pc := by unfold skipIf; split <;> rfl
@[simp] theorem skipIf_sp (c : Bool) : (skipIf c s).sp = s.sp := by unfold skipIf; split <;> rfl
@[simp] theorem skipIf_stack (c : Bool) : (skipIf c s).stack = s.stack := by unfold skipIf; split <;> rfl
@[simp] theorem skipIf_dt (c : Bool) : (skipIf c s).dt = s.dt := by unfold skipIf; split <;> rfl
@[simp] theorem skipIf_st (c : Bool) : (skipIf c s).st = s.st := by unfold skipIf; split <;> rfl
@[simp] theorem skipIf_mem (c : Bool) : (skipIf c s).mem = s.mem := by unfold skipIf; split <;> rfl
@[simp] theorem skipIf_run (c : Bool) : (skipIf c s).run = s.run := by unfold skipIf; split <;> rfl
@[simp] theorem skipIf_waitX (c : Bool) : (skipIf c s).waitX = s.waitX := by unfold skipIf; split <;> rfl
@[simp] theorem skipIf_waitAddr (c : Bool) : (skipIf c s).waitAddr = s.waitAddr := by unfold skipIf; split <;> rfl
@[simp] theorem skipIf_fault (c : Bool) : (skipIf c s).fault = s.fault := by unfold skipIf; split <;> rfl
@[simp] theorem skipIf_unk (c : Bool) : (skipIf c s).unk = s.unk := by unfold skipIf; split <;> rfl
@[simp] theorem skipIf_unkAddr (c : Bool) : (skipIf c s).unkAddr = s.unkAddr := by unfold skipIf; split <;> rfl
@[simp] theorem skipIf_unkOp (c : Bool) : (skipIf c s).unkOp = s.unkOp := by unfold skipIf; split <;> rfl
@[simp] theorem skipIf_fb (c : Bool) : (skipIf c s).fb = s.fb := by unfold skipIf; split <;> rfl
@[simp] theorem skipIf_params (c : Bool) : (skipIf c s).params = s.params := by unfold skipIf; split <;> rfl
@[simp] theorem skipIf_ports (c : Bool) : (skipIf c s).ports = s.ports := by unfold skipIf; split <;> rfl
@[simp] theorem skipIf_undoX (c : Bool) : (skipIf c s).undoX = s.undoX := by unfold skipIf; split <;> rfl
@[simp] theorem skipIf_undoAddr (c : Bool) : (skipIf c s).undoAddr = s.undoAddr := by unfold skipIf; split <;> rfl
@[simp] theorem skipIf_ret (c : Bool) : (skipIf c s).ret = s.ret := by unfold skipIf; split <;> rfl

/-! The fields after jump. -/

@[simp] theorem jump_v (target : Word) : (jump target s).v = s.v := rfl
@[simp] theorem jump_i (target : Word) : (jump target s).i = s.i := rfl
@[simp] theorem jump_pc (target : Word) : (jump target s).pc = target := rfl
@[simp] theorem jump_sp (target : Word) : (jump target s).sp = s.sp := rfl
@[simp] theorem jump_stack (target : Word) : (jump target s).stack = s.stack := rfl
@[simp] theorem jump_dt (target : Word) : (jump target s).dt = s.dt := rfl
@[simp] theorem jump_st (target : Word) : (jump target s).st = s.st := rfl
@[simp] theorem jump_mem (target : Word) : (jump target s).mem = s.mem := rfl
@[simp] theorem jump_run (target : Word) : (jump target s).run = s.run := rfl
@[simp] theorem jump_waitX (target : Word) : (jump target s).waitX = s.waitX := rfl
@[simp] theorem jump_waitAddr (target : Word) : (jump target s).waitAddr = s.waitAddr := rfl
@[simp] theorem jump_fault (target : Word) : (jump target s).fault = s.fault := rfl
@[simp] theorem jump_unk (target : Word) : (jump target s).unk = s.unk := rfl
@[simp] theorem jump_unkAddr (target : Word) : (jump target s).unkAddr = s.unkAddr := rfl
@[simp] theorem jump_unkOp (target : Word) : (jump target s).unkOp = s.unkOp := rfl
@[simp] theorem jump_fb (target : Word) : (jump target s).fb = s.fb := rfl
@[simp] theorem jump_params (target : Word) : (jump target s).params = s.params := rfl
@[simp] theorem jump_ports (target : Word) : (jump target s).ports = s.ports := rfl
@[simp] theorem jump_undoX (target : Word) : (jump target s).undoX = s.undoX := rfl
@[simp] theorem jump_undoAddr (target : Word) : (jump target s).undoAddr = s.undoAddr := rfl
@[simp] theorem jump_ret (target : Word) : (jump target s).ret = s.ret := rfl

/-! The fields after push. -/

@[simp] theorem push_v (w : Word) : (push w s).v = s.v := rfl
@[simp] theorem push_i (w : Word) : (push w s).i = s.i := rfl
@[simp] theorem push_pc (w : Word) : (push w s).pc = s.pc := rfl
@[simp] theorem push_sp (w : Word) : (push w s).sp = s.sp + 1 := rfl
@[simp] theorem push_stack (w : Word) : (push w s).stack = s.stack.setIfInBounds s.sp.toNat w := rfl
@[simp] theorem push_dt (w : Word) : (push w s).dt = s.dt := rfl
@[simp] theorem push_st (w : Word) : (push w s).st = s.st := rfl
@[simp] theorem push_mem (w : Word) : (push w s).mem = s.mem := rfl
@[simp] theorem push_run (w : Word) : (push w s).run = s.run := rfl
@[simp] theorem push_waitX (w : Word) : (push w s).waitX = s.waitX := rfl
@[simp] theorem push_waitAddr (w : Word) : (push w s).waitAddr = s.waitAddr := rfl
@[simp] theorem push_fault (w : Word) : (push w s).fault = s.fault := rfl
@[simp] theorem push_unk (w : Word) : (push w s).unk = s.unk := rfl
@[simp] theorem push_unkAddr (w : Word) : (push w s).unkAddr = s.unkAddr := rfl
@[simp] theorem push_unkOp (w : Word) : (push w s).unkOp = s.unkOp := rfl
@[simp] theorem push_fb (w : Word) : (push w s).fb = s.fb := rfl
@[simp] theorem push_params (w : Word) : (push w s).params = s.params := rfl
@[simp] theorem push_ports (w : Word) : (push w s).ports = s.ports := rfl
@[simp] theorem push_undoX (w : Word) : (push w s).undoX = s.undoX := rfl
@[simp] theorem push_undoAddr (w : Word) : (push w s).undoAddr = s.undoAddr := rfl
@[simp] theorem push_ret (w : Word) : (push w s).ret = s.ret := rfl

/-! The fields after storeBytes. -/

@[simp] theorem storeBytes_v (base : Nat) (bs : List Byte) : (storeBytes s base bs).v = s.v := rfl
@[simp] theorem storeBytes_i (base : Nat) (bs : List Byte) : (storeBytes s base bs).i = s.i := rfl
@[simp] theorem storeBytes_pc (base : Nat) (bs : List Byte) : (storeBytes s base bs).pc = s.pc := rfl
@[simp] theorem storeBytes_sp (base : Nat) (bs : List Byte) : (storeBytes s base bs).sp = s.sp := rfl
@[simp] theorem storeBytes_stack (base : Nat) (bs : List Byte) : (storeBytes s base bs).stack = s.stack := rfl
@[simp] theorem storeBytes_dt (base : Nat) (bs : List Byte) : (storeBytes s base bs).dt = s.dt := rfl
@[simp] theorem storeBytes_st (base : Nat) (bs : List Byte) : (storeBytes s base bs).st = s.st := rfl
@[simp] theorem storeBytes_mem (base : Nat) (bs : List Byte) : (storeBytes s base bs).mem = Memory.writeBytes s.params s.mem base bs := rfl
@[simp] theorem storeBytes_run (base : Nat) (bs : List Byte) : (storeBytes s base bs).run = s.run := rfl
@[simp] theorem storeBytes_waitX (base : Nat) (bs : List Byte) : (storeBytes s base bs).waitX = s.waitX := rfl
@[simp] theorem storeBytes_waitAddr (base : Nat) (bs : List Byte) : (storeBytes s base bs).waitAddr = s.waitAddr := rfl
@[simp] theorem storeBytes_fault (base : Nat) (bs : List Byte) : (storeBytes s base bs).fault = s.fault := rfl
@[simp] theorem storeBytes_unk (base : Nat) (bs : List Byte) : (storeBytes s base bs).unk = s.unk := rfl
@[simp] theorem storeBytes_unkAddr (base : Nat) (bs : List Byte) : (storeBytes s base bs).unkAddr = s.unkAddr := rfl
@[simp] theorem storeBytes_unkOp (base : Nat) (bs : List Byte) : (storeBytes s base bs).unkOp = s.unkOp := rfl
@[simp] theorem storeBytes_fb (base : Nat) (bs : List Byte) : (storeBytes s base bs).fb = s.fb := rfl
@[simp] theorem storeBytes_params (base : Nat) (bs : List Byte) : (storeBytes s base bs).params = s.params := rfl
@[simp] theorem storeBytes_ports (base : Nat) (bs : List Byte) : (storeBytes s base bs).ports = s.ports := rfl
@[simp] theorem storeBytes_undoX (base : Nat) (bs : List Byte) : (storeBytes s base bs).undoX = s.undoX := rfl
@[simp] theorem storeBytes_undoAddr (base : Nat) (bs : List Byte) : (storeBytes s base bs).undoAddr = s.undoAddr := rfl
@[simp] theorem storeBytes_ret (base : Nat) (bs : List Byte) : (storeBytes s base bs).ret = s.ret := rfl

/-! The fields after enterFault. -/

@[simp] theorem enterFault_v (c : Cause) (a : Word) (op : Option Word) (info : Nat) : (enterFault c a op info s).v = s.v := rfl
@[simp] theorem enterFault_i (c : Cause) (a : Word) (op : Option Word) (info : Nat) : (enterFault c a op info s).i = s.i := rfl
@[simp] theorem enterFault_pc (c : Cause) (a : Word) (op : Option Word) (info : Nat) : (enterFault c a op info s).pc = a := rfl
@[simp] theorem enterFault_sp (c : Cause) (a : Word) (op : Option Word) (info : Nat) : (enterFault c a op info s).sp = s.sp := rfl
@[simp] theorem enterFault_stack (c : Cause) (a : Word) (op : Option Word) (info : Nat) : (enterFault c a op info s).stack = s.stack := rfl
@[simp] theorem enterFault_dt (c : Cause) (a : Word) (op : Option Word) (info : Nat) : (enterFault c a op info s).dt = s.dt := rfl
@[simp] theorem enterFault_st (c : Cause) (a : Word) (op : Option Word) (info : Nat) : (enterFault c a op info s).st = s.st := rfl
@[simp] theorem enterFault_mem (c : Cause) (a : Word) (op : Option Word) (info : Nat) : (enterFault c a op info s).mem = s.mem := rfl
@[simp] theorem enterFault_run (c : Cause) (a : Word) (op : Option Word) (info : Nat) : (enterFault c a op info s).run = .faulted := rfl
@[simp] theorem enterFault_waitX (c : Cause) (a : Word) (op : Option Word) (info : Nat) : (enterFault c a op info s).waitX = s.waitX := rfl
@[simp] theorem enterFault_waitAddr (c : Cause) (a : Word) (op : Option Word) (info : Nat) : (enterFault c a op info s).waitAddr = s.waitAddr := rfl
@[simp] theorem enterFault_fault (c : Cause) (a : Word) (op : Option Word) (info : Nat) : (enterFault c a op info s).fault = { cause := some c, addr := a, op := op, info := BitVec.ofNat 17 info } := rfl
@[simp] theorem enterFault_unk (c : Cause) (a : Word) (op : Option Word) (info : Nat) : (enterFault c a op info s).unk = s.unk := rfl
@[simp] theorem enterFault_unkAddr (c : Cause) (a : Word) (op : Option Word) (info : Nat) : (enterFault c a op info s).unkAddr = s.unkAddr := rfl
@[simp] theorem enterFault_unkOp (c : Cause) (a : Word) (op : Option Word) (info : Nat) : (enterFault c a op info s).unkOp = s.unkOp := rfl
@[simp] theorem enterFault_fb (c : Cause) (a : Word) (op : Option Word) (info : Nat) : (enterFault c a op info s).fb = s.fb := rfl
@[simp] theorem enterFault_params (c : Cause) (a : Word) (op : Option Word) (info : Nat) : (enterFault c a op info s).params = s.params := rfl
@[simp] theorem enterFault_ports (c : Cause) (a : Word) (op : Option Word) (info : Nat) : (enterFault c a op info s).ports = s.ports := rfl
@[simp] theorem enterFault_undoX (c : Cause) (a : Word) (op : Option Word) (info : Nat) : (enterFault c a op info s).undoX = s.undoX := rfl
@[simp] theorem enterFault_undoAddr (c : Cause) (a : Word) (op : Option Word) (info : Nat) : (enterFault c a op info s).undoAddr = s.undoAddr := rfl
@[simp] theorem enterFault_ret (c : Cause) (a : Word) (op : Option Word) (info : Nat) : (enterFault c a op info s).ret = .fault { cause := some c, addr := a, op := op, info := BitVec.ofNat 17 info } := rfl

/-! The fields after raise. -/

@[simp] theorem raise_v (c : Cause) (i : Instr) (info : Nat) : (raise c i info s).v = s.v := rfl
@[simp] theorem raise_i (c : Cause) (i : Instr) (info : Nat) : (raise c i info s).i = s.i := rfl
@[simp] theorem raise_pc (c : Cause) (i : Instr) (info : Nat) : (raise c i info s).pc = s.pc - 2 := rfl
@[simp] theorem raise_sp (c : Cause) (i : Instr) (info : Nat) : (raise c i info s).sp = s.sp := rfl
@[simp] theorem raise_stack (c : Cause) (i : Instr) (info : Nat) : (raise c i info s).stack = s.stack := rfl
@[simp] theorem raise_dt (c : Cause) (i : Instr) (info : Nat) : (raise c i info s).dt = s.dt := rfl
@[simp] theorem raise_st (c : Cause) (i : Instr) (info : Nat) : (raise c i info s).st = s.st := rfl
@[simp] theorem raise_mem (c : Cause) (i : Instr) (info : Nat) : (raise c i info s).mem = s.mem := rfl
@[simp] theorem raise_run (c : Cause) (i : Instr) (info : Nat) : (raise c i info s).run = .faulted := rfl
@[simp] theorem raise_waitX (c : Cause) (i : Instr) (info : Nat) : (raise c i info s).waitX = s.waitX := rfl
@[simp] theorem raise_waitAddr (c : Cause) (i : Instr) (info : Nat) : (raise c i info s).waitAddr = s.waitAddr := rfl
@[simp] theorem raise_fault (c : Cause) (i : Instr) (info : Nat) : (raise c i info s).fault = { cause := some c, addr := s.pc - 2, op := some (encode i), info := BitVec.ofNat 17 info } := rfl
@[simp] theorem raise_unk (c : Cause) (i : Instr) (info : Nat) : (raise c i info s).unk = s.unk := rfl
@[simp] theorem raise_unkAddr (c : Cause) (i : Instr) (info : Nat) : (raise c i info s).unkAddr = s.unkAddr := rfl
@[simp] theorem raise_unkOp (c : Cause) (i : Instr) (info : Nat) : (raise c i info s).unkOp = s.unkOp := rfl
@[simp] theorem raise_fb (c : Cause) (i : Instr) (info : Nat) : (raise c i info s).fb = s.fb := rfl
@[simp] theorem raise_params (c : Cause) (i : Instr) (info : Nat) : (raise c i info s).params = s.params := rfl
@[simp] theorem raise_ports (c : Cause) (i : Instr) (info : Nat) : (raise c i info s).ports = s.ports := rfl
@[simp] theorem raise_undoX (c : Cause) (i : Instr) (info : Nat) : (raise c i info s).undoX = s.undoX := rfl
@[simp] theorem raise_undoAddr (c : Cause) (i : Instr) (info : Nat) : (raise c i info s).undoAddr = s.undoAddr := rfl
@[simp] theorem raise_ret (c : Cause) (i : Instr) (info : Nat) : (raise c i info s).ret = .fault { cause := some c, addr := s.pc - 2, op := some (encode i), info := BitVec.ofNat 17 info } := rfl

/-! The fields after repeatFault. -/

@[simp] theorem repeatFault_v : (repeatFault s).v = s.v := rfl
@[simp] theorem repeatFault_i : (repeatFault s).i = s.i := rfl
@[simp] theorem repeatFault_pc : (repeatFault s).pc = s.pc := rfl
@[simp] theorem repeatFault_sp : (repeatFault s).sp = s.sp := rfl
@[simp] theorem repeatFault_stack : (repeatFault s).stack = s.stack := rfl
@[simp] theorem repeatFault_dt : (repeatFault s).dt = s.dt := rfl
@[simp] theorem repeatFault_st : (repeatFault s).st = s.st := rfl
@[simp] theorem repeatFault_mem : (repeatFault s).mem = s.mem := rfl
@[simp] theorem repeatFault_run : (repeatFault s).run = s.run := rfl
@[simp] theorem repeatFault_waitX : (repeatFault s).waitX = s.waitX := rfl
@[simp] theorem repeatFault_waitAddr : (repeatFault s).waitAddr = s.waitAddr := rfl
@[simp] theorem repeatFault_fault : (repeatFault s).fault = s.fault := rfl
@[simp] theorem repeatFault_unk : (repeatFault s).unk = s.unk := rfl
@[simp] theorem repeatFault_unkAddr : (repeatFault s).unkAddr = s.unkAddr := rfl
@[simp] theorem repeatFault_unkOp : (repeatFault s).unkOp = s.unkOp := rfl
@[simp] theorem repeatFault_fb : (repeatFault s).fb = s.fb := rfl
@[simp] theorem repeatFault_params : (repeatFault s).params = s.params := rfl
@[simp] theorem repeatFault_ports : (repeatFault s).ports = s.ports := rfl
@[simp] theorem repeatFault_undoX : (repeatFault s).undoX = s.undoX := rfl
@[simp] theorem repeatFault_undoAddr : (repeatFault s).undoAddr = s.undoAddr := rfl
@[simp] theorem repeatFault_ret : (repeatFault s).ret = .fault s.fault := rfl

/-! The fields after tick. -/

@[simp] theorem tick_v : (tick s).v = s.v := rfl
@[simp] theorem tick_i : (tick s).i = s.i := rfl
@[simp] theorem tick_pc : (tick s).pc = s.pc := rfl
@[simp] theorem tick_sp : (tick s).sp = s.sp := rfl
@[simp] theorem tick_stack : (tick s).stack = s.stack := rfl
@[simp] theorem tick_dt : (tick s).dt = decrement s.dt := rfl
@[simp] theorem tick_st : (tick s).st = decrement s.st := rfl
@[simp] theorem tick_mem : (tick s).mem = s.mem := rfl
@[simp] theorem tick_run : (tick s).run = s.run := rfl
@[simp] theorem tick_waitX : (tick s).waitX = s.waitX := rfl
@[simp] theorem tick_waitAddr : (tick s).waitAddr = s.waitAddr := rfl
@[simp] theorem tick_fault : (tick s).fault = s.fault := rfl
@[simp] theorem tick_unk : (tick s).unk = s.unk := rfl
@[simp] theorem tick_unkAddr : (tick s).unkAddr = s.unkAddr := rfl
@[simp] theorem tick_unkOp : (tick s).unkOp = s.unkOp := rfl
@[simp] theorem tick_fb : (tick s).fb = s.fb := rfl
@[simp] theorem tick_params : (tick s).params = s.params := rfl
@[simp] theorem tick_ports : (tick s).ports = s.ports := rfl
@[simp] theorem tick_undoX : (tick s).undoX = s.undoX := rfl
@[simp] theorem tick_undoAddr : (tick s).undoAddr = s.undoAddr := rfl
@[simp] theorem tick_ret : (tick s).ret = s.ret := rfl

end Sys2Proof.Machine
end

