-- ==== Sys2Proof/Laws/Frame.lean ====
section
/-! SUPPORT. Laws/Frame.lean: the framebuffer's canonical form and what drawing does to a pixel. -/

namespace Sys2Proof.Machine

theorem Frame.rising_cons {q : Nat} {rest : Frame} :
    Frame.rising (q :: rest) = true ↔ (∀ r ∈ rest, q < r) ∧ Frame.rising rest = true := by
  simp [Frame.rising]

/-- The pixels of a frame after a toggle are those of before and the toggled one. -/
theorem Frame.mem_toggle_imp {p q : Nat} {fb : Frame} (h : q ∈ Frame.toggle p fb) : q = p ∨ q ∈ fb := by
  induction fb with
  | nil => simpa [Frame.toggle] using h
  | cons r rest ih =>
    unfold Frame.toggle at h
    split at h
    · simpa using h
    · split at h
      · exact .inr (List.mem_cons_of_mem _ h)
      · rcases List.mem_cons.1 h with rfl | h
        · exact .inr List.mem_cons_self
        · rcases ih h with h | h
          · exact .inl h
          · exact .inr (List.mem_cons_of_mem _ h)

/-- Toggling keeps the pixel numbers rising. -/
theorem Frame.rising_toggle (p : Nat) {fb : Frame} (h : Frame.rising fb = true) :
    Frame.rising (Frame.toggle p fb) = true := by
  induction fb with
  | nil => rfl
  | cons q rest ih =>
    obtain ⟨hlt, hrest⟩ := Frame.rising_cons.1 h
    unfold Frame.toggle
    split
    · next hpq =>
      refine Frame.rising_cons.2 ⟨?_, h⟩
      intro r hr
      rcases List.mem_cons.1 hr with rfl | hr
      · exact hpq
      · exact hpq.trans (hlt r hr)
    · split
      · exact hrest
      · refine Frame.rising_cons.2 ⟨?_, ih hrest⟩
        intro r hr
        rcases Frame.mem_toggle_imp hr with h | h
        · omega
        · exact hlt r h

/-- Toggling turns one pixel over and no other (XOR, 44 R201). -/
theorem Frame.isSet_toggle (p q : Nat) {fb : Frame} (h : Frame.rising fb = true) :
    Frame.isSet (Frame.toggle p fb) q = (Frame.isSet fb q ^^ decide (q = p)) := by
  induction fb with
  | nil => by_cases hq : q = p <;> simp [Frame.toggle, Frame.isSet, hq]
  | cons r rest ih =>
    obtain ⟨hlt, hrest⟩ := Frame.rising_cons.1 h
    have ih := ih hrest
    simp only [Frame.isSet] at ih ⊢
    unfold Frame.toggle
    split
    · next hpr =>
      by_cases hq : q = p
      · subst hq
        have : q ∉ rest := fun hm => by have := hlt q hm; omega
        have hne : q ≠ r := by omega
        simp [this, hne]
      · simp [hq]
    · split
      · next hpr =>
        subst hpr
        by_cases hq : q = p
        · subst hq
          have : q ∉ rest := fun hm => by have := hlt q hm; omega
          simp [this]
        · simp [hq]
      · next h1 h2 =>
        simp only [List.contains_cons]
        rw [ih]
        by_cases hqr : q = r
        · subst hqr
          have : q ≠ p := fun h => h2 h.symm
          simp [this]
        · have hqr' : (q == r) = false := by simpa using hqr
          rw [hqr']; simp

/-- setPixel keeps the frame canonical. -/
theorem setPixel_rising (q : Nat) (on : Bool) {fb : Frame} (h : Frame.rising fb = true) :
    Frame.rising (setPixel q on fb).1 = true := by
  cases on
  · exact h
  · exact Frame.rising_toggle q h

/-- setPixel changes the pixel it names by XOR, and no other. -/
theorem isSet_setPixel (q r : Nat) (on : Bool) {fb : Frame} (h : Frame.rising fb = true) :
    Frame.isSet (setPixel q on fb).1 r = (Frame.isSet fb r ^^ (on && decide (r = q))) := by
  cases on
  · simp [setPixel]
  · simpa [setPixel] using Frame.isSet_toggle q r h

/-- Drawing keeps the frame rising. -/
theorem blit_rising (pixels : List (Nat × Bool)) {fb : Frame} (h : Frame.rising fb = true) :
    Frame.rising (blit pixels fb).1 = true := by
  induction pixels generalizing fb with
  | nil => exact h
  | cons c rest ih => exact ih (setPixel_rising c.1 c.2 h)

/-- Drawing one list and then another. -/
theorem blit_append (first second : List (Nat × Bool)) (fb : Frame) : blit (first ++ second) fb =
    ((blit second (blit first fb).1).1, (blit first fb).2 || (blit second (blit first fb).1).2) := by
  induction first generalizing fb with
  | nil => simp [blit]
  | cons c rest ih => simp [blit, ih, Bool.or_assoc]

/-- A pixel after drawing is turned over once for each setPixel that names it with its bit set. -/
theorem isSet_blit (pixels : List (Nat × Bool)) (q : Nat) {fb : Frame} (h : Frame.rising fb = true) :
    Frame.isSet (blit pixels fb).1 q =
      (Frame.isSet fb q ^^ pixels.countP (fun c => c.2 && c.1 == q) % 2 == 1) := by
  induction pixels generalizing fb with
  | nil => simp [blit]
  | cons c rest ih =>
    obtain ⟨r, on⟩ := c
    simp only [blit, ih (setPixel_rising r on h), isSet_setPixel r q on h, List.countP_cons]
    by_cases hr : r = q
    · subst hr
      cases on
      · simp
      · generalize Frame.isSet fb r = b
        rcases Nat.mod_two_eq_zero_or_one (rest.countP (fun c => c.2 && c.1 == r)) with e | e <;>
          cases b <;> simp [e, Nat.add_mod]
    · have hq : q ≠ r := fun e => hr e.symm
      simp [hr, hq]

/-- Drawing collides exactly when some setPixel with its bit set meets a set pixel, the earlier ones drawn. -/
theorem blit_collides (pixels : List (Nat × Bool)) (fb : Frame) : (blit pixels fb).2 = true ↔
    ∃ (k : Nat) (hk : k < pixels.length), pixels[k].2 = true ∧
      Frame.isSet (blit (pixels.take k) fb).1 pixels[k].1 = true := by
  induction pixels generalizing fb with
  | nil => simp [blit]
  | cons c rest ih =>
    obtain ⟨r, on⟩ := c
    simp only [blit, Bool.or_eq_true, ih]
    constructor
    · rintro (h | ⟨k, hk, h1, h2⟩)
      · exact ⟨0, by simp, by simpa [setPixel, blit] using h⟩
      · exact ⟨k + 1, by simpa using hk, by simpa using h1, by simpa [blit] using h2⟩
    · rintro ⟨k, hk, h1, h2⟩
      cases k with
      | zero => exact .inl (by simpa [setPixel, blit] using And.intro h1 h2)
      | succ k => exact .inr ⟨k, by simpa using hk, by simpa using h1, by simpa [blit] using h2⟩

/-- Every pixel set after drawing was set before or is one of those drawn. -/
theorem mem_blit {pixels : List (Nat × Bool)} {fb : Frame} {q : Nat} (h : q ∈ (blit pixels fb).1) :
    q ∈ fb ∨ ∃ c ∈ pixels, c.1 = q := by
  induction pixels generalizing fb with
  | nil => exact .inl h
  | cons c rest ih =>
    obtain ⟨r, on⟩ := c
    rcases ih h with h | ⟨c, hc, hq⟩
    · cases on
      · exact .inl h
      · rcases Frame.mem_toggle_imp h with h | h
        · exact .inr ⟨(r, true), List.mem_cons_self, h.symm⟩
        · exact .inl h
    · exact .inr ⟨c, List.mem_cons_of_mem _ hc, hq⟩

/-- Every pixel number lies on the display. -/
theorem pixelAt_lt (p : Params) (px py : Nat) (hw : 1 ≤ p.displayW) (hh : 1 ≤ p.displayH) :
    pixelAt p px py < p.displayW * p.displayH := by
  have h1 : py % p.displayH < p.displayH := Nat.mod_lt _ hh
  have h2 : px % p.displayW < p.displayW := Nat.mod_lt _ hw
  unfold pixelAt
  calc py % p.displayH * p.displayW + px % p.displayW
      < py % p.displayH * p.displayW + p.displayW := by omega
    _ = (py % p.displayH + 1) * p.displayW := by ring
    _ ≤ p.displayH * p.displayW := Nat.mul_le_mul_right _ h1
    _ = p.displayW * p.displayH := Nat.mul_comm _ _

/-- A sprite makes eight setPixels a row. -/
@[simp] theorem length_spritePixels (p : Params) (x y : Nat) (rows : List Byte) :
    (spritePixels p x y rows).length = 8 * rows.length := by
  induction rows generalizing y with
  | nil => rfl
  | cons row rest ih => simp [spritePixels, rowPixels, ih]; omega

/-- The k-th setPixel of a sprite: row k / 8, column k % 8 (44 R201). -/
theorem getElem_spritePixels (p : Params) (x y : Nat) (rows : List Byte) (k : Nat)
    (hk : k < (spritePixels p x y rows).length) : (spritePixels p x y rows)[k] =
      (pixelAt p (x + k % 8) (y + k / 8), rowBit (rows.getD (k / 8) 0) (k % 8)) := by
  induction rows generalizing y k with
  | nil => simp at hk
  | cons row rest ih =>
    have hl : (rowPixels p x y row).length = 8 := by simp [rowPixels]
    by_cases h : k < 8
    · have e1 : k / 8 = 0 := by omega
      have e2 : k % 8 = k := by omega
      simp only [spritePixels, List.getElem_append_left (by omega : k < (rowPixels p x y row).length)]
      simp [rowPixels, e1, e2]
    · obtain ⟨j, rfl⟩ : ∃ j, k = j + 8 := ⟨k - 8, by omega⟩
      have e1 : (j + 8) / 8 = j / 8 + 1 := by omega
      have e2 : (j + 8) % 8 = j % 8 := by omega
      simp only [spritePixels, List.getElem_append_right (by omega : (rowPixels p x y row).length ≤ j + 8)]
      simp only [hl, Nat.add_sub_cancel, ih, e1, e2, List.getD_cons_succ]
      congr 2; omega

/-- The pixels a sprite touches lie on the display. -/
theorem spritePixels_lt (p : Params) (x y : Nat) (rows : List Byte) (hw : 1 ≤ p.displayW) (hh : 1 ≤ p.displayH) :
    ∀ c ∈ spritePixels p x y rows, c.1 < p.displayW * p.displayH := by
  induction rows generalizing y with
  | nil => simp [spritePixels]
  | cons row rest ih =>
    intro c hc
    rcases List.mem_append.1 hc with hc | hc
    · obtain ⟨b, -, rfl⟩ := List.mem_map.1 hc
      exact pixelAt_lt p _ _ hw hh
    · exact ih (y + 1) c hc

theorem Frame.wf_iff {p : Params} {fb : Frame} :
    Frame.wf p fb = true ↔ Frame.rising fb = true ∧ ∀ q ∈ fb, q < p.displayW * p.displayH := by
  simp [Frame.wf]

/-- Drawing a sprite keeps the frame canonical and on the display. -/
theorem setSprite_wf (p : Params) (x y : Nat) (rows : List Byte) {fb : Frame} (hw : 1 ≤ p.displayW)
    (hh : 1 ≤ p.displayH) (h : Frame.wf p fb = true) : Frame.wf p (setSprite p x y rows fb).1 = true := by
  obtain ⟨hr, hlt⟩ := Frame.wf_iff.1 h
  refine Frame.wf_iff.2 ⟨blit_rising _ hr, fun q hq => ?_⟩
  rcases mem_blit hq with hq | ⟨c, hc, rfl⟩
  · exact hlt q hq
  · exact spritePixels_lt p x y rows hw hh c hc

theorem Frame.rising_iff {fb : Frame} : Frame.rising fb = true ↔ fb.Pairwise (· < ·) := by
  induction fb with
  | nil => simp [Frame.rising]
  | cons q rest ih => rw [Frame.rising_cons, ih, List.pairwise_cons]

/-- The frame a failed call leaves is canonical, whatever its pixels. -/
theorem freeFrame_wf (p : Params) (draws : Nat) : Frame.wf p (freeFrame p draws) = true := by
  refine Frame.wf_iff.2 ⟨Frame.rising_iff.2 ?_, fun q hq => ?_⟩
  · exact List.Pairwise.filter _ List.pairwise_lt_range
  · exact List.mem_range.1 (List.mem_of_mem_filter hq)

end Sys2Proof.Machine
end

