-- ==== Sys2Proof/Laws/Memory.lean ====
section
/-! SUPPORT. Laws/Memory.lean: reading after writing, the canonical form, and the range check. -/

namespace Sys2Proof.Machine

variable (p : Params)

/-- A cell list that lists no entry for an address reads as the default there. -/
theorem cellAt_eq_default {m : List Host.Cell} {a : Nat} {d : Byte} (h : ∀ c ∈ m, c.1 ≠ a) : cellAt m a d = d := by
  induction m with
  | nil => rfl
  | cons c rest ih =>
    obtain ⟨b, x⟩ := c
    simp only [List.mem_cons, forall_eq_or_imp] at h
    simp [cellAt, h.1, ih h.2]

/-- An unlisted address reads as its reset content. -/
theorem Memory.read_nil (a : Nat) : Memory.read p [] a = resetByte p a := rfl

/-- A write leaves every other address alone, whatever the list. -/
theorem Memory.read_write_other (m : Memory) {a a' : Nat} (b : Byte) (h : a' ≠ a) :
    Memory.read p (Memory.write p m a b) a' = Memory.read p m a' := by
  have h' : a ≠ a' := h.symm
  induction m with
  | nil =>
    unfold Memory.write
    split <;> simp [Memory.read, cellAt, h']
  | cons c rest ih =>
    obtain ⟨d, x⟩ := c
    unfold Memory.write
    simp only [Memory.read] at ih
    split
    · split <;> simp [Memory.read, cellAt, h']
    · split
      · next hd => subst hd; split <;> simp [Memory.read, cellAt, h']
      · simp only [Memory.read, cellAt]; rw [ih]

theorem Memory.wf_cons {a : Nat} {b : Byte} {rest : Memory} :
    Memory.wf p ((a, b) :: rest) = true ↔
      b ≠ resetByte p a ∧ (∀ c ∈ rest, a < c.1) ∧ Memory.wf p rest = true := by
  simp [Memory.wf, and_assoc]

/-- In a canonical memory a write is read back. -/
theorem Memory.read_write_same {m : Memory} (a : Nat) (b : Byte) (hm : Memory.wf p m = true) :
    Memory.read p (Memory.write p m a b) a = b := by
  induction m with
  | nil =>
    unfold Memory.write
    split <;> simp_all [Memory.read, cellAt]
  | cons c rest ih =>
    obtain ⟨d, x⟩ := c
    obtain ⟨-, hlt, hrest⟩ := (Memory.wf_cons p).1 hm
    unfold Memory.write
    split
    · next had =>
      split
      · next hb =>
        have : ∀ c ∈ (d, x) :: rest, c.1 ≠ a := by
          intro c hc
          rcases List.mem_cons.1 hc with rfl | hc
          · exact Nat.ne_of_gt had
          · exact Nat.ne_of_gt (had.trans (hlt c hc))
        rw [Memory.read, cellAt_eq_default this, hb]
      · simp [Memory.read, cellAt]
    · split
      · next hd =>
        subst hd
        split
        · next hb => rw [Memory.read, cellAt_eq_default (fun c hc => Nat.ne_of_gt (hlt c hc)), hb]
        · simp [Memory.read, cellAt]
      · next h1 h2 =>
        have := ih hrest
        simp only [Memory.read, cellAt] at this ⊢
        rw [if_neg (fun h => h2 h.symm), this]

/-- The addresses listed after a write are those listed before and the address written. -/
theorem Memory.mem_write_fst {m : Memory} {a : Nat} {b : Byte} {c : Host.Cell}
    (h : c ∈ Memory.write p m a b) : c.1 = a ∨ c ∈ m := by
  induction m with
  | nil =>
    unfold Memory.write at h
    split at h <;> simp_all
  | cons e rest ih =>
    obtain ⟨d, x⟩ := e
    unfold Memory.write at h
    split at h
    · split at h
      · exact .inr h
      · rcases List.mem_cons.1 h with rfl | h
        · exact .inl rfl
        · exact .inr h
    · split at h
      · next hd =>
        split at h
        · exact .inr (List.mem_cons_of_mem _ h)
        · rcases List.mem_cons.1 h with rfl | h
          · exact .inl rfl
          · exact .inr (List.mem_cons_of_mem _ h)
      · rcases List.mem_cons.1 h with rfl | h
        · exact .inr List.mem_cons_self
        · rcases ih h with h | h
          · exact .inl h
          · exact .inr (List.mem_cons_of_mem _ h)

/-- A write keeps the canonical form. -/
theorem Memory.wf_write {m : Memory} (a : Nat) (b : Byte) (hm : Memory.wf p m = true) :
    Memory.wf p (Memory.write p m a b) = true := by
  induction m with
  | nil =>
    unfold Memory.write
    split <;> simp_all [Memory.wf]
  | cons c rest ih =>
    obtain ⟨d, x⟩ := c
    obtain ⟨hx, hlt, hrest⟩ := (Memory.wf_cons p).1 hm
    unfold Memory.write
    split
    · next had =>
      split
      · exact hm
      · next hb =>
        refine (Memory.wf_cons p).2 ⟨hb, ?_, hm⟩
        intro c hc
        rcases List.mem_cons.1 hc with rfl | hc
        · exact had
        · exact had.trans (hlt c hc)
    · split
      · next hd =>
        subst hd
        split
        · exact hrest
        · next hb => exact (Memory.wf_cons p).2 ⟨hb, hlt, hrest⟩
      · refine (Memory.wf_cons p).2 ⟨hx, ?_, ih hrest⟩
        intro c hc
        rcases Memory.mem_write_fst p hc with h | h
        · omega
        · exact hlt c h

/-- A write below N keeps every listed address below N. -/
theorem Memory.bounded_write {m : Memory} {a : Nat} (b : Byte) (hm : Memory.bounded p m = true)
    (ha : a < p.memSize) : Memory.bounded p (Memory.write p m a b) = true := by
  simp only [Memory.bounded, List.all_eq_true, decide_eq_true_eq] at hm ⊢
  intro c hc
  rcases Memory.mem_write_fst p hc with h | h
  · omega
  · exact hm c h

/-- Storing bytes keeps the canonical form. -/
theorem Memory.wf_writeBytes {m : Memory} (base : Nat) (bs : List Byte) (hm : Memory.wf p m = true) :
    Memory.wf p (Memory.writeBytes p m base bs) = true := by
  induction bs generalizing m base with
  | nil => exact hm
  | cons b rest ih => exact ih (base + 1) (Memory.wf_write p base b hm)

/-- Storing bytes below N keeps every listed address below N. -/
theorem Memory.bounded_writeBytes {m : Memory} {base : Nat} {bs : List Byte} (hm : Memory.bounded p m = true)
    (h : base + bs.length ≤ p.memSize) : Memory.bounded p (Memory.writeBytes p m base bs) = true := by
  induction bs generalizing m base with
  | nil => exact hm
  | cons b rest ih =>
    rw [List.length_cons] at h
    exact ih (Memory.bounded_write p b hm (by omega)) (by omega)

/-- Bytes stored from base up leave every address outside them alone. -/
theorem Memory.read_writeBytes_other (m : Memory) (base : Nat) (bs : List Byte) {a : Nat}
    (h : a < base ∨ base + bs.length ≤ a) :
    Memory.read p (Memory.writeBytes p m base bs) a = Memory.read p m a := by
  induction bs generalizing m base with
  | nil => rfl
  | cons b rest ih =>
    rw [List.length_cons] at h
    rw [Memory.writeBytes, ih _ _ (by omega), Memory.read_write_other p m b (by omega)]

/-- Bytes stored from base up are read back. -/
theorem Memory.read_writeBytes_at {m : Memory} (base : Nat) (bs : List Byte) {k : Nat} (hm : Memory.wf p m = true)
    (h : k < bs.length) : Memory.read p (Memory.writeBytes p m base bs) (base + k) = bs[k] := by
  induction bs generalizing m base k with
  | nil => simp at h
  | cons b rest ih =>
    have hw := Memory.wf_write p base b hm
    cases k with
    | zero =>
      rw [Memory.writeBytes, Memory.read_writeBytes_other p _ _ _ (by omega)]
      exact Memory.read_write_same p base b hm
    | succ k =>
      rw [Memory.writeBytes, show base + (k + 1) = base + 1 + k by omega]
      exact ih (base + 1) hw (by simpa using h)

theorem Memory.length_readBytes (m : Memory) (base len : Nat) : (Memory.readBytes p m base len).length = len := by
  induction len generalizing base with
  | zero => rfl
  | succ len ih => simp [Memory.readBytes, ih]

/-- The bytes read from base up are those at base, base + 1, … -/
theorem Memory.getElem_readBytes (m : Memory) (base len : Nat) {k : Nat}
    (h : k < (Memory.readBytes p m base len).length) :
    (Memory.readBytes p m base len)[k] = Memory.read p m (base + k) := by
  induction len generalizing base k with
  | zero => simp [Memory.readBytes] at h
  | succ len ih =>
    cases k with
    | zero => rfl
    | succ k =>
      simp only [Memory.readBytes, List.getElem_cons_succ]
      rw [ih (base + 1), show base + 1 + k = base + (k + 1) by omega]

/-- The range check passes exactly when the range is empty or lies below N (20 R54). -/
theorem rangeFault_eq_none {n base len : Nat} : rangeFault n base len = none ↔ len = 0 ∨ base + len ≤ n := by
  induction len generalizing base with
  | zero => simp [rangeFault]
  | succ len ih =>
    unfold rangeFault
    split
    · simp; omega
    · rw [ih]; omega

/-- The range check reports the lowest address of the range that is not below N (20 R54). -/
theorem rangeFault_eq_some {n base len a : Nat} :
    rangeFault n base len = some a ↔ len ≠ 0 ∧ n < base + len ∧ a = max base n := by
  induction len generalizing base with
  | zero => simp [rangeFault]
  | succ len ih =>
    unfold rangeFault
    split
    · simp; omega
    · rw [ih]; omega

/-- A store keeps the reads of every address outside the stored bytes. -/
theorem readByte_storeBytes_other (s : State) (base : Nat) (bs : List Byte) {a : Nat}
    (h : a < base ∨ base + bs.length ≤ a) : readByte (storeBytes s base bs) a = readByte s a :=
  Memory.read_writeBytes_other s.params s.mem base bs h

/-- A store into a canonical memory is read back. -/
theorem readByte_storeBytes_at (s : State) (base : Nat) (bs : List Byte) {k : Nat}
    (hm : Memory.wf s.params s.mem = true) (h : k < bs.length) :
    readByte (storeBytes s base bs) (base + k) = bs[k] :=
  Memory.read_writeBytes_at s.params base bs hm h

@[simp] theorem length_loadBytes (s : State) (base len : Nat) : (loadBytes s base len).length = len :=
  Memory.length_readBytes s.params s.mem base len

theorem getElem_loadBytes (s : State) (base len : Nat) {k : Nat} (h : k < (loadBytes s base len).length) :
    (loadBytes s base len)[k] = readByte s (base + k) :=
  Memory.getElem_readBytes s.params s.mem base len h

end Sys2Proof.Machine
end

