-- ==== Sys2Proof/Laws/Ops.lean ====
section
/-! SUPPORT. Laws/Ops.lean: what each shared operation can do, said once. -/

namespace Sys2Proof.Machine

/-! Registers. -/

/-- A register after a register write (10 R21). -/
@[simp] theorem getV_setV (x r : Nibble) (b : Byte) (s : State) :
    getV (setV x b s) r = if r = x then b else getV s r := by
  unfold getV setV
  simp only [Vector.getElem_set]
  by_cases h : r = x
  · simp [h]
  · have : ¬ x.toNat = r.toNat := fun h' => h (BitVec.eq_of_toNat_eq h'.symm)
    simp [h, this]

@[simp] theorem getV_beginStep (s : State) (r : Nibble) : getV (beginStep s) r = getV s r := rfl
@[simp] theorem getV_skip (s : State) (r : Nibble) : getV (skip s) r = getV s r := rfl
@[simp] theorem getV_skipIf (s : State) (c : Bool) (r : Nibble) : getV (skipIf c s) r = getV s r := by
  unfold skipIf; split <;> rfl
@[simp] theorem getV_jump (s : State) (w : Word) (r : Nibble) : getV (jump w s) r = getV s r := rfl
@[simp] theorem getV_push (s : State) (w : Word) (r : Nibble) : getV (push w s) r = getV s r := rfl
@[simp] theorem getV_storeBytes (s : State) (a : Nat) (bs : List Byte) (r : Nibble) :
    getV (storeBytes s a bs) r = getV s r := rfl
@[simp] theorem getV_enterFault (s : State) (c : Cause) (a : Word) (op : Option Word) (info : Nat) (r : Nibble) :
    getV (enterFault c a op info s) r = getV s r := rfl
@[simp] theorem getV_raise (s : State) (c : Cause) (i : Instr) (info : Nat) (r : Nibble) :
    getV (raise c i info s) r = getV s r := rfl
@[simp] theorem getV_tick (s : State) (r : Nibble) : getV (tick s) r = getV s r := rfl

/-- Two states with the same registers read the same. -/
theorem getV_congr {s t : State} (h : t.v = s.v) (r : Nibble) : getV t r = getV s r := by
  unfold getV; simp [h]

/-- Two states with the same parameters and memory read the same byte. -/
theorem readByte_congr {s t : State} (hp : t.params = s.params) (hm : t.mem = s.mem) (a : Nat) :
    readByte t a = readByte s a := by
  unfold readByte; rw [hp, hm]

/-- The flagged write: VF first, V[x] second (41 R145). -/
theorem getV_writeFlagged (x r : Nibble) (f : Bool) (b : Byte) (s : State) :
    getV (writeFlagged x f b s) r = if r = x then b else if r = 0xF then flagByte f else getV s r := by
  simp [writeFlagged, regF]

/-- Writing a list of bytes to the registers changes nothing but the registers. -/
theorem setVs_eq (s : State) (k : Nat) (bs : List Byte) : ∃ v, setVs s k bs = { s with v := v } := by
  induction bs generalizing s k with
  | nil => exact ⟨s.v, rfl⟩
  | cons b rest ih =>
    obtain ⟨v, hv⟩ := ih (setV (BitVec.ofNat 4 k) b s) (k + 1)
    exact ⟨v, hv⟩

/-- The registers k, k+1, … hold the bytes written, the others are as before (42 R164). -/
theorem getV_setVs (s : State) (k : Nat) (bs : List Byte) (h : k + bs.length ≤ 16) (r : Nibble) :
    getV (setVs s k bs) r = if h : k ≤ r.toNat ∧ r.toNat < k + bs.length then bs[r.toNat - k] else getV s r := by
  induction bs generalizing s k with
  | nil =>
    have : ¬ (k ≤ r.toNat ∧ r.toNat < k + 0) := by omega
    simp [setVs]
  | cons b rest ih =>
    rw [List.length_cons] at h
    rw [setVs, ih _ _ (by omega)]
    have hk : k < 16 := by omega
    have hkr : r = BitVec.ofNat 4 k ↔ r.toNat = k := by
      constructor
      · intro e; rw [e]; simp; omega
      · intro e; apply BitVec.eq_of_toNat_eq; simp; omega
    simp only [getV_setV, hkr, List.length_cons]
    by_cases h1 : r.toNat = k
    · simp [h1]
    · by_cases h2 : k + 1 ≤ r.toNat ∧ r.toNat < k + 1 + rest.length
      · have h3 : k ≤ r.toNat ∧ r.toNat < k + (rest.length + 1) := by omega
        rw [dif_pos h2, dif_pos h3]
        have : r.toNat - k = (r.toNat - (k + 1)) + 1 := by omega
        simp [this]
      · have h3 : ¬ (k ≤ r.toNat ∧ r.toNat < k + (rest.length + 1)) := by omega
        rw [dif_neg h2, dif_neg h3, if_neg h1]

@[simp] theorem length_getVs (s : State) (x : Nibble) : (getVs s x).length = x.toNat + 1 := by simp [getVs]

/-- Byte k of V0..Vx is V[k] (42 R163). -/
theorem getElem_getVs (s : State) (x : Nibble) {k : Nat} (h : k < (getVs s x).length) :
    (getVs s x)[k] = getV s (BitVec.ofNat 4 k) := by simp [getVs]

/-! The stack. -/

theorem stackAt_lt (s : State) {j : Nat} (h : j < 16) : ∃ w, stackAt s j = some w := by
  unfold stackAt; exact ⟨s.stack[j], by simp [h]⟩

theorem stackAt_ge (s : State) {j : Nat} (h : 16 ≤ j) : stackAt s j = none := by
  unfold stackAt; simp; omega

/-- The stack after a push below 16 (40 R103). -/
theorem stackAt_push (w : Word) (s : State) (j : Nat) (h : s.sp.toNat < 16) :
    stackAt (push w s) j = if j = s.sp.toNat then some w else stackAt s j := by
  unfold stackAt push
  simp only [Vector.getElem?_setIfInBounds]
  by_cases hj : s.sp.toNat = j
  · subst hj; simp [h]
  · have : ¬ j = s.sp.toNat := fun e => hj e.symm
    simp [hj, this]

/-! The ports: an answer changes nothing but the ports (44 R208). -/

theorem takeRandom_snd (s : State) : (takeRandom s).2 = { s with ports := (takeRandom s).2.ports } := by
  unfold takeRandom; split <;> rfl

theorem takeRandom_eq (s : State) : ∃ a ports, takeRandom s = (a, { s with ports := ports }) :=
  ⟨(takeRandom s).1, (takeRandom s).2.ports, by rw [← takeRandom_snd]⟩

theorem takeKeyDown_snd (s : State) : (takeKeyDown s).2 = { s with ports := (takeKeyDown s).2.ports } := by
  unfold takeKeyDown; split <;> rfl

theorem takeKeyDown_eq (s : State) : ∃ a ports, takeKeyDown s = (a, { s with ports := ports }) :=
  ⟨(takeKeyDown s).1, (takeKeyDown s).2.ports, by rw [← takeKeyDown_snd]⟩

theorem takeKeyWait_snd (s : State) : (takeKeyWait s).2 = { s with ports := (takeKeyWait s).2.ports } := by
  unfold takeKeyWait; split <;> rfl

theorem takeKeyWait_eq (s : State) : ∃ a ports, takeKeyWait s = (a, { s with ports := ports }) :=
  ⟨(takeKeyWait s).1, (takeKeyWait s).2.ports, by rw [← takeKeyWait_snd]⟩

theorem takeSink_snd (s : State) : (takeSink s).2 = { s with ports := (takeSink s).2.ports } := by
  unfold takeSink; split <;> rfl

theorem takeSink_eq (s : State) : ∃ a ports, takeSink s = (a, { s with ports := ports }) :=
  ⟨(takeSink s).1, (takeSink s).2.ports, by rw [← takeSink_snd]⟩

/-- A failed sink changes nothing but the frame and the ports, and leaves a canonical frame (92 D28). -/
theorem sinkFailed_eq (s : State) (h : Frame.wf s.params s.fb = true) :
    ∃ fb ports, sinkFailed s = { s with fb := fb, ports := ports } ∧ Frame.wf s.params fb = true := by
  unfold sinkFailed
  split
  · exact ⟨_, _, rfl, freeFrame_wf _ _⟩
  · exact ⟨s.fb, s.ports, rfl, h⟩

/-- Clearing changes nothing but the frame and the ports (44 R203). -/
theorem sinkClear_eq (s : State) (h : Frame.wf s.params s.fb = true) :
    ∃ fb ports, (sinkClear s).2 = { s with fb := fb, ports := ports } ∧ Frame.wf s.params fb = true := by
  unfold sinkClear
  obtain ⟨a, ports, he⟩ := takeSink_eq s
  rw [he]
  cases a with
  | backendError =>
    obtain ⟨fb, q, he, hf⟩ := sinkFailed_eq { s with ports := ports } h
    exact ⟨fb, q, he, hf⟩
  | done c =>
    cases hk : s.params.sink
    · exact ⟨[], ports, by simp [hk], rfl⟩
    · exact ⟨s.fb, ports, by simp [hk], h⟩

/-- Drawing changes nothing but the frame and the ports (44 R202). -/
theorem sinkDraw_eq (x y : Nat) (rows : List Byte) (s : State) (hw : 1 ≤ s.params.displayW)
    (hh : 1 ≤ s.params.displayH) (h : Frame.wf s.params s.fb = true) :
    ∃ fb ports, (sinkDraw x y rows s).2 = { s with fb := fb, ports := ports } ∧ Frame.wf s.params fb = true := by
  unfold sinkDraw
  obtain ⟨a, ports, he⟩ := takeSink_eq s
  rw [he]
  cases a with
  | backendError =>
    obtain ⟨fb, q, he, hf⟩ := sinkFailed_eq { s with ports := ports } h
    exact ⟨fb, q, he, hf⟩
  | done c =>
    cases hk : s.params.sink
    · exact ⟨_, ports, by simp only [hk], setSprite_wf s.params x y rows hw hh h⟩
    · exact ⟨s.fb, ports, by simp [hk], h⟩

/-! Fetching, waiting, unknown words, the host's operations. -/

/-- The fetch fails exactly when PC + 1 ≥ N (30 R81). -/
theorem fetch_eq (s : State) :
    (s.pc.toNat + 1 < s.params.memSize ∧
      fetch s = .word (composeWord (readByte s s.pc.toNat) (readByte s (s.pc.toNat + 1)))) ∨
    (s.params.memSize ≤ s.pc.toNat + 1 ∧
      fetch s = .outOfBounds (if s.params.memSize ≤ s.pc.toNat then s.pc.toNat else s.pc.toNat + 1)) := by
  unfold fetch
  by_cases h : s.params.memSize ≤ s.pc.toNat + 1
  · exact .inr ⟨h, if_pos h⟩
  · exact .inl ⟨by omega, if_neg h⟩

/-- One look at an open wait: no key yet, a key, or a failure (44 R206). -/
theorem waitOnce_cases (s : State) :
    ((takeKeyWait s).1 = .noKeyYet ∧ waitOnce s = (takeKeyWait s).2) ∨
    (∃ k, (takeKeyWait s).1 = .pressed k ∧ waitOnce s = endWait k (takeKeyWait s).2) ∨
    ((takeKeyWait s).1 = .backendError ∧ waitOnce s = failWait (takeKeyWait s).2) := by
  unfold waitOnce
  rcases takeKeyWait s with ⟨a, t⟩
  cases a
  · exact .inl ⟨rfl, rfl⟩
  · exact .inr (.inl ⟨_, rfl, rfl⟩)
  · exact .inr (.inr ⟨rfl, rfl⟩)

/-- What an Unknown word does under each policy (60 R233). -/
theorem unknownWord_cases (w : Word) (s : State) :
    (s.params.policy = .report ∧ unknownWord w s =
      { s with
        unk := true
        unkAddr := if s.unk then s.unkAddr else s.pc - 2
        unkOp := if s.unk then s.unkOp else w
        ret := .report (s.pc - 2) w }) ∨
    (s.params.policy = .silent ∧ unknownWord w s = s) ∨
    (s.params.policy = .fatal ∧ unknownWord w s = enterFault .unknownOpcode (s.pc - 2) (some w) 0 s) := by
  unfold unknownWord
  cases h : s.params.policy
  · refine .inl ⟨rfl, ?_⟩
    cases hu : s.unk <;> simp [instrAddr]
  · exact .inr (.inl ⟨rfl, rfl⟩)
  · exact .inr (.inr ⟨rfl, rfl⟩)

/-- A timer after a tick (43 R185). -/
theorem toNat_decrement (t : Byte) : (decrement t).toNat = t.toNat - 1 := by
  unfold decrement
  split
  · next h => simp [h]
  · next h =>
    have : t.toNat ≠ 0 := fun h' => h (BitVec.eq_of_toNat_eq h')
    have := t.isLt
    simp [BitVec.toNat_sub]; omega

/-- A load copies or does nothing (20 R60). -/
theorem load_cases (bytes : List Byte) (offset : Int) (s : State) :
    (0 ≤ offset ∧ offset.toNat + bytes.length ≤ s.params.memSize ∧
      load bytes offset s = (.ok, storeBytes s offset.toNat bytes)) ∨
    ((offset < 0 ∨ (s.params.memSize : Int) < offset + bytes.length) ∧ load bytes offset s = (.outOfBounds, s)) := by
  unfold load
  by_cases h : offset < 0 ∨ (s.params.memSize : Int) < offset + bytes.length
  · exact .inr ⟨h, if_pos h⟩
  · exact .inl ⟨by omega, by omega, if_neg h⟩

/-- One transition of the core: what a step can do (30 R80, 44 R206, 60 R237). -/
theorem step_cases (s : State) :
    (s.run = .ready ∧ ∃ info, fetch s = .outOfBounds info ∧ step s = .next (fetchFault info s)) ∨
    (s.run = .ready ∧ ∃ w i, fetch s = .word w ∧ decodeWord w = .instr i ∧ step s = exec i (beginStep s)) ∨
    (s.run = .ready ∧ ∃ w r, fetch s = .word w ∧ decodeWord w = .rejected r ∧
      step s = .next (unknownWord w (beginStep s))) ∨
    (s.run = .waitKey ∧ step s = .next (waitOnce s)) ∨
    (s.run = .faulted ∧ step s = .next (repeatFault s)) := by
  unfold step runWord
  cases s.run
  · cases hf : fetch s with
    | outOfBounds info => exact .inl ⟨rfl, info, rfl, rfl⟩
    | word w =>
      cases hd : decodeWord w with
      | instr i => exact .inr (.inl ⟨rfl, w, i, rfl, hd, by simp only [hd]⟩)
      | rejected r => exact .inr (.inr (.inl ⟨rfl, w, r, rfl, hd, by simp only [hd]⟩))
  · exact .inr (.inr (.inr (.inl ⟨rfl, rfl⟩)))
  · exact .inr (.inr (.inr (.inr ⟨rfl, rfl⟩)))

end Sys2Proof.Machine
end

