-- ==== Sys2Proof/Laws/Exec.lean ====
section
/-! SUPPORT. Laws/Exec.lean: everything an instruction can do to the state outside the general registers, said
once for all 33 (the registers follow from Laws/Ops.lean). -/

namespace Sys2Proof.Machine

/-- What `exec i s = .next t` says of t, field by field. -/
structure ExecEffect (i : Instr) (s t : State) : Prop where
  params : t.params = s.params
  dt : t.dt = s.dt ∨ ∃ x, i = .ldDtVx x ∧ t.dt = getV s x
  st : t.st = s.st ∨ ∃ x, i = .ldStVx x ∧ t.st = getV s x
  ix : t.i = s.i ∨ (∃ n, i = .ldI n ∧ t.i = addrOperand n) ∨ ∃ x, i = .ldFVx x ∧ t.i = glyphAddr (getV s x)
  mem : t.mem = s.mem ∨
    (∃ x, i = .ldBVx x ∧ s.i.toNat + 3 ≤ s.params.memSize ∧
      t.mem = Memory.writeBytes s.params s.mem s.i.toNat (decimalDigits (getV s x))) ∨
    ∃ x, i = .ldMemVx x ∧ s.i.toNat + (x.toNat + 1) ≤ s.params.memSize ∧
      t.mem = Memory.writeBytes s.params s.mem s.i.toNat (getVs s x)
  stk : (t.sp = s.sp ∧ t.stack = s.stack) ∨
    (∃ n, i = .call n ∧ s.sp.toNat < 16 ∧ t.sp = s.sp + 1 ∧
      t.stack = s.stack.setIfInBounds s.sp.toNat s.pc) ∨
    (i = .ret ∧ s.sp ≠ 0 ∧ t.sp = s.sp - 1 ∧ t.stack = s.stack)
  unk : t.unk = s.unk ∧ t.unkAddr = s.unkAddr ∧ t.unkOp = s.unkOp
  run : (t.run = s.run ∧ t.ret = s.ret ∧ t.fault = s.fault) ∨
    (t.run = .faulted ∧ t.ret = .fault t.fault ∧ t.fault.cause ≠ none ∧ t.pc = s.pc - 2 ∧ t.fault.addr = t.pc ∧
      (∀ r, getV t r = getV s r) ∧ t.i = s.i ∧ t.mem = s.mem ∧ t.sp = s.sp ∧ t.stack = s.stack ∧ t.dt = s.dt ∧
      t.st = s.st ∧ t.waitX = s.waitX ∧ t.waitAddr = s.waitAddr ∧
      (t.fault.cause ≠ some .backendError → t.fb = s.fb)) ∨
    ∃ x, i = .ldVxK x ∧ t.fault = s.fault ∧ t.pc = s.pc ∧ t.waitAddr = s.pc - 2 ∧
      ((t.run = .ready ∧ t.ret = .ok) ∨ (t.run = .waitKey ∧ t.ret = .notYet))
  fb : s.params.displayOk = true → Frame.wf s.params s.fb = true → Frame.wf s.params t.fb = true

/-- Only V, PC, the ports and the framebuffer moved. -/
theorem exec_effect_of_display (i : Instr) (s t : State) (v pc ports fb)
    (hf : s.params.displayOk = true → Frame.wf s.params s.fb = true → Frame.wf s.params fb = true)
    (h : t = { s with v := v, pc := pc, ports := ports, fb := fb }) : ExecEffect i s t := by
  subst h
  exact
      ⟨rfl, .inl rfl, .inl rfl, .inl rfl, .inl rfl, .inl ⟨rfl, rfl⟩, ⟨rfl, rfl, rfl⟩, .inl ⟨rfl, rfl, rfl⟩,
      hf⟩

/-- Only V, PC and the ports moved. -/
theorem exec_effect_of_registers (i : Instr) (s t : State) (v pc ports)
    (h : t = { s with v := v, pc := pc, ports := ports }) : ExecEffect i s t :=
  exec_effect_of_display i s t v pc ports s.fb (fun _ h => h) h

/-- A fault raised after a port moved the framebuffer and the ports. -/
theorem exec_effect_of_raise (c : Cause) (i : Instr) (info) (s s0 : State) (fb ports)
    (hs : s = { s0 with fb := fb, ports := ports }) (hb : c ≠ .backendError → fb = s0.fb)
    (hf : s0.params.displayOk = true → Frame.wf s0.params s0.fb = true → Frame.wf s0.params fb = true) :
    ExecEffect i s0 (raise c i info s) := by
  subst hs
  refine ⟨rfl, .inl rfl, .inl rfl, .inl rfl, .inl rfl, .inl ⟨rfl, rfl⟩, ⟨rfl, rfl, rfl⟩,
    .inr (.inl ⟨rfl, rfl, by simp, rfl, rfl, fun _ => rfl, rfl, rfl, rfl, rfl, rfl, rfl, rfl, rfl, ?_⟩), hf⟩
  simp; exact hb

/-- A fault raised at once. -/
theorem exec_effect_raise (c : Cause) (i : Instr) (info) (s : State) : ExecEffect i s (raise c i info s) :=
  exec_effect_of_raise c i info s s s.fb s.ports rfl (fun _ => rfl) (fun _ h => h)

/-- Every instruction, one case each. -/
theorem exec_effect (i : Instr) (s t : State) (h : exec i s = .next t) : ExecEffect i s t := by
  cases i
  case ret =>
    simp only [exec, execRet] at h
    split at h
    · cases h; exact exec_effect_raise _ _ _ _
    · next h0 =>
      split at h <;> cases h
      exact
          ⟨rfl, .inl rfl, .inl rfl, .inl rfl, .inl rfl, .inr (.inr ⟨rfl, h0, rfl, rfl⟩), ⟨rfl, rfl, rfl⟩, .inl
          ⟨rfl, rfl, rfl⟩, fun _ h => h⟩
  case ldVxMem x =>
    simp only [exec, execLdVxMem] at h
    split at h <;> cases h
    · exact exec_effect_raise _ _ _ _
    · obtain ⟨v, hv⟩ := setVs_eq s 0 (loadBytes s (baseAddr s) (regCount x))
      rw [hv]; exact exec_effect_of_registers _ _ _ v s.pc s.ports rfl
  case call n =>
    simp only [exec, execCall] at h; split at h <;> cases h
    · exact exec_effect_raise _ _ _ _
    · exact
          ⟨rfl, .inl rfl, .inl rfl, .inl rfl, .inl rfl, .inr (.inl ⟨n, rfl, by omega, rfl, rfl⟩), ⟨rfl, rfl,
          rfl⟩, .inl ⟨rfl, rfl, rfl⟩, fun _ h => h⟩
  case ldBVx x =>
    simp only [exec, execLdBVx] at h; split at h <;> cases h
    · exact exec_effect_raise _ _ _ _
    · next hr => exact
          ⟨rfl, .inl rfl, .inl rfl, .inl rfl, .inr (.inl ⟨x, rfl, (rangeFault_eq_none.1 hr).resolve_left (by
          decide), rfl⟩), .inl ⟨rfl, rfl⟩, ⟨rfl, rfl, rfl⟩, .inl ⟨rfl, rfl, rfl⟩, fun _ h => h⟩
  case ldMemVx x =>
    simp only [exec, execLdMemVx] at h; split at h <;> cases h
    · exact exec_effect_raise _ _ _ _
    · next hr => exact
          ⟨rfl, .inl rfl, .inl rfl, .inl rfl, .inr (.inr ⟨x, rfl, (rangeFault_eq_none.1 hr).resolve_left (by
          simp [regCount]), rfl⟩), .inl ⟨rfl, rfl⟩, ⟨rfl, rfl, rfl⟩, .inl ⟨rfl, rfl, rfl⟩, fun _ h => h⟩
  case cls =>
    simp only [exec, execCls, sinkClear] at h
    obtain ⟨a, q, e⟩ := takeSink_eq s
    rw [e] at h
    cases a <;> simp only [sinkFailed] at h <;> cases hk : s.params.sink <;> simp only [hk] at h <;> cases h
    · exact exec_effect_of_display _ _ _ s.v s.pc q [] (fun _ _ => rfl) rfl
    · exact exec_effect_of_registers _ _ _ s.v s.pc q rfl
    · exact exec_effect_of_raise _ _ _ _ s _ _ rfl (by simp) (fun _ _ => freeFrame_wf _ _)
    · exact exec_effect_of_raise _ _ _ _ s s.fb _ rfl (by simp) (fun _ h => h)
  case drw x y n =>
    simp only [exec, execDrw, sinkDraw] at h
    obtain ⟨a, q, e⟩ := takeSink_eq s
    split at h
    · cases h; exact exec_effect_raise _ _ _ _
    · rw [e] at h
      cases a <;> simp only [sinkFailed] at h <;> cases hk : s.params.sink <;> simp only [hk] at h <;> cases h
      · exact exec_effect_of_display _ _ _ _ s.pc q _ (fun hd hw => by
          simp [Params.displayOk] at hd
          exact setSprite_wf s.params _ _ _ hd.1 hd.2 hw) rfl
      · exact exec_effect_of_registers _ _ _ _ s.pc q rfl
      · exact exec_effect_of_raise _ _ _ _ s _ _ rfl (by simp) (fun _ _ => freeFrame_wf _ _)
      · exact exec_effect_of_raise _ _ _ _ s s.fb _ rfl (by simp) (fun _ h => h)
  case skp x =>
    simp only [exec, execSkp, keySkip] at h
    obtain ⟨a, q, e⟩ := takeKeyDown_eq s
    split at h
    · cases h; exact exec_effect_raise _ _ _ _
    · rw [e] at h; cases a <;> cases h
      · next d => cases d <;> exact exec_effect_of_registers _ _ _ s.v _ q rfl
      · exact exec_effect_of_raise _ _ _ _ s s.fb _ rfl (by simp) (fun _ h => h)
  case sknp x =>
    simp only [exec, execSknp, keySkip] at h
    obtain ⟨a, q, e⟩ := takeKeyDown_eq s
    split at h
    · cases h; exact exec_effect_raise _ _ _ _
    · rw [e] at h; cases a <;> cases h
      · next d => cases d <;> exact exec_effect_of_registers _ _ _ s.v _ q rfl
      · exact exec_effect_of_raise _ _ _ _ s s.fb _ rfl (by simp) (fun _ h => h)
  case ldVxK x =>
    simp only [exec, execLdVxK, waitOnce] at h
    obtain ⟨a, q, e⟩ := takeKeyWait_eq (enterWait x s)
    rw [e] at h
    cases a <;> cases h
    · exact
          ⟨rfl, .inl rfl, .inl rfl, .inl rfl, .inl rfl, .inl ⟨rfl, rfl⟩, ⟨rfl, rfl, rfl⟩, .inr (.inr ⟨x, rfl,
          rfl, rfl, rfl, .inr ⟨rfl, rfl⟩⟩), fun _ h => h⟩
    · exact
          ⟨rfl, .inl rfl, .inl rfl, .inl rfl, .inl rfl, .inl ⟨rfl, rfl⟩, ⟨rfl, rfl, rfl⟩, .inr (.inr ⟨x, rfl,
          rfl, rfl, rfl, .inl ⟨rfl, rfl⟩⟩), fun _ h => h⟩
    · exact
          ⟨rfl, .inl rfl, .inl rfl, .inl rfl, .inl rfl, .inl ⟨rfl, rfl⟩, ⟨rfl, rfl, rfl⟩, .inr (.inl ⟨rfl,
          rfl, by simp [failWait], rfl, rfl, fun _ => rfl, rfl, rfl, rfl, rfl, rfl, rfl, rfl, rfl, fun _ => rfl⟩), fun _
          h => h⟩
  case rnd x kk =>
    simp only [exec, execRnd] at h
    obtain ⟨a, q, e⟩ := takeRandom_eq s
    rw [e] at h; cases h
    exact exec_effect_of_registers _ _ _ _ s.pc q rfl
  case ldI n => cases h; exact
      ⟨rfl, .inl rfl, .inl rfl, .inr (.inl ⟨n, rfl, rfl⟩), .inl rfl, .inl ⟨rfl, rfl⟩, ⟨rfl, rfl, rfl⟩, .inl
      ⟨rfl, rfl, rfl⟩, fun _ h => h⟩
  case ldFVx n => cases h; exact
      ⟨rfl, .inl rfl, .inl rfl, .inr (.inr ⟨n, rfl, rfl⟩), .inl rfl, .inl ⟨rfl, rfl⟩, ⟨rfl, rfl, rfl⟩, .inl
      ⟨rfl, rfl, rfl⟩, fun _ h => h⟩
  case ldDtVx n => cases h; exact
      ⟨rfl, .inr ⟨n, rfl, rfl⟩, .inl rfl, .inl rfl, .inl rfl, .inl ⟨rfl, rfl⟩, ⟨rfl, rfl, rfl⟩, .inl ⟨rfl,
      rfl, rfl⟩, fun _ h => h⟩
  case ldStVx n => cases h; exact
      ⟨rfl, .inl rfl, .inr ⟨n, rfl, rfl⟩, .inl rfl, .inl rfl, .inl ⟨rfl, rfl⟩, ⟨rfl, rfl, rfl⟩, .inl ⟨rfl,
      rfl, rfl⟩, fun _ h => h⟩
  all_goals
    first
    | (cases h; exact exec_effect_of_registers _ _ _ _ _ _ rfl)
    | (cases h; unfold skipIf skip; split <;> exact exec_effect_of_registers _ _ _ _ _ _ rfl)

end Sys2Proof.Machine
end

