-- ==== Sys2Proof/Laws/PerInstr.lean ====
section
/-! SUPPORT. Laws/PerInstr.lean: the statement made of every instruction as syntax, one lemma a constructor: it
is well formed, and its word fits the row of the opcode table it is written from (spec 30 R84, R86). -/

namespace Sys2Proof.Laws.EncodingRow

/-- Instruction i is well formed, its row is one of the 33 and its word has that row's fixed bits. -/
def Statement (i : Instr) : Prop :=
  i.wellFormed = true ∧ i.row < 33 ∧ i.pattern.fits (encode i) = true

/-- A nibble under the mask of all its bits. -/
theorem nibble_and (a : Nibble) : a &&& 0xF#4 = a := by revert a; decide

/-- A byte under the mask of all its bits. -/
theorem byte_and (a : Byte) : a &&& 0xFF#8 = a := BitVec.and_allOnes

/-- Format FA under the mask of its row. -/
theorem encodeA_fits (op : Nibble) (nnn : Addr12) : (encodeA op nnn &&& 0xF000#16) = op ++ 0#12 := by
  show (op ++ nnn : BitVec 16) &&& (0xF#4 ++ 0#12) = _
  rw [BitVec.and_append]
  simp [nibble_and]

/-- Format FXK, any immediate, under the mask of its row. -/
theorem encodeXK_fits (op x : Nibble) (kk : Byte) : (encodeXK op x kk &&& 0xF000#16) = op ++ 0#4 ++ 0#8 := by
  show (op ++ x ++ kk : BitVec 16) &&& (0xF#4 ++ 0#4 ++ 0#8) = _
  rw [BitVec.and_append, BitVec.and_append]
  simp [nibble_and]

/-- Format FX, a fixed function byte, under the mask of its row. -/
theorem encodeX_fits (op x : Nibble) (f : Byte) : (encodeXK op x f &&& 0xF0FF#16) = op ++ 0#4 ++ f := by
  show (op ++ x ++ f : BitVec 16) &&& (0xF#4 ++ 0#4 ++ 0xFF#8) = _
  rw [BitVec.and_append, BitVec.and_append]
  simp [nibble_and, byte_and]

/-- Format FXY, a fixed function nibble, under the mask of its row. -/
theorem encodeXY_fits (op x y f : Nibble) : (encodeXYN op x y f &&& 0xF00F#16) = op ++ 0#4 ++ 0#4 ++ f := by
  show (op ++ x ++ y ++ f : BitVec 16) &&& (0xF#4 ++ 0#4 ++ 0#4 ++ 0xF#4) = _
  rw [BitVec.and_append, BitVec.and_append, BitVec.and_append]
  simp [nibble_and]

/-- Format FXYN under the mask of its row. -/
theorem encodeXYN_fits (op x y n : Nibble) : (encodeXYN op x y n &&& 0xF000#16) = op ++ 0#4 ++ 0#4 ++ 0#4 := by
  show (op ++ x ++ y ++ n : BitVec 16) &&& (0xF#4 ++ 0#4 ++ 0#4 ++ 0#4) = _
  rw [BitVec.and_append, BitVec.and_append, BitVec.and_append]
  simp [nibble_and]

/-- A statement from the row's mask, its fixed bits and the word under the mask. -/
theorem of_fits {i : Instr} (row : i.row < 33) (mask fixed : Word) (hp : i.pattern = ⟨mask, fixed⟩)
    (hw : encode i &&& mask = fixed) : Statement i :=
  ⟨rfl, row, by simp [Pattern.fits, hp, hw]⟩

theorem cls : Statement .cls := of_fits (by decide) _ _ rfl rfl
theorem ret : Statement .ret := of_fits (by decide) _ _ rfl rfl
theorem jp (nnn : Addr12) : Statement (.jp nnn) :=
  of_fits (by simp [Instr.row]) _ _ rfl (encodeA_fits _ _)
theorem call (nnn : Addr12) : Statement (.call nnn) :=
  of_fits (by simp [Instr.row]) _ _ rfl (encodeA_fits _ _)
theorem seImm (x : Nibble) (kk : Byte) : Statement (.seImm x kk) :=
  of_fits (by simp [Instr.row]) _ _ rfl (encodeXK_fits _ _ _)
theorem sneImm (x : Nibble) (kk : Byte) : Statement (.sneImm x kk) :=
  of_fits (by simp [Instr.row]) _ _ rfl (encodeXK_fits _ _ _)
theorem seReg (x : Nibble) (y : Nibble) : Statement (.seReg x y) :=
  of_fits (by simp [Instr.row]) _ _ rfl (encodeXY_fits _ _ _ _)
theorem ldImm (x : Nibble) (kk : Byte) : Statement (.ldImm x kk) :=
  of_fits (by simp [Instr.row]) _ _ rfl (encodeXK_fits _ _ _)
theorem addImm (x : Nibble) (kk : Byte) : Statement (.addImm x kk) :=
  of_fits (by simp [Instr.row]) _ _ rfl (encodeXK_fits _ _ _)
theorem ldReg (x : Nibble) (y : Nibble) : Statement (.ldReg x y) :=
  of_fits (by simp [Instr.row]) _ _ rfl (encodeXY_fits _ _ _ _)
theorem orReg (x : Nibble) (y : Nibble) : Statement (.orReg x y) :=
  of_fits (by simp [Instr.row]) _ _ rfl (encodeXY_fits _ _ _ _)
theorem andReg (x : Nibble) (y : Nibble) : Statement (.andReg x y) :=
  of_fits (by simp [Instr.row]) _ _ rfl (encodeXY_fits _ _ _ _)
theorem xorReg (x : Nibble) (y : Nibble) : Statement (.xorReg x y) :=
  of_fits (by simp [Instr.row]) _ _ rfl (encodeXY_fits _ _ _ _)
theorem addReg (x : Nibble) (y : Nibble) : Statement (.addReg x y) :=
  of_fits (by simp [Instr.row]) _ _ rfl (encodeXY_fits _ _ _ _)
theorem subReg (x : Nibble) (y : Nibble) : Statement (.subReg x y) :=
  of_fits (by simp [Instr.row]) _ _ rfl (encodeXY_fits _ _ _ _)
theorem shr (x : Nibble) : Statement (.shr x) :=
  of_fits (by simp [Instr.row]) _ _ rfl (encodeXY_fits _ _ _ _)
theorem subnReg (x : Nibble) (y : Nibble) : Statement (.subnReg x y) :=
  of_fits (by simp [Instr.row]) _ _ rfl (encodeXY_fits _ _ _ _)
theorem shl (x : Nibble) : Statement (.shl x) :=
  of_fits (by simp [Instr.row]) _ _ rfl (encodeXY_fits _ _ _ _)
theorem sneReg (x : Nibble) (y : Nibble) : Statement (.sneReg x y) :=
  of_fits (by simp [Instr.row]) _ _ rfl (encodeXY_fits _ _ _ _)
theorem ldI (nnn : Addr12) : Statement (.ldI nnn) :=
  of_fits (by simp [Instr.row]) _ _ rfl (encodeA_fits _ _)
theorem jpV0 (nnn : Addr12) : Statement (.jpV0 nnn) :=
  of_fits (by simp [Instr.row]) _ _ rfl (encodeA_fits _ _)
theorem rnd (x : Nibble) (kk : Byte) : Statement (.rnd x kk) :=
  of_fits (by simp [Instr.row]) _ _ rfl (encodeXK_fits _ _ _)
theorem drw (x : Nibble) (y : Nibble) (n : Nibble) : Statement (.drw x y n) :=
  of_fits (by simp [Instr.row]) _ _ rfl (encodeXYN_fits _ _ _ _)
theorem skp (x : Nibble) : Statement (.skp x) :=
  of_fits (by simp [Instr.row]) _ _ rfl (encodeX_fits _ _ _)
theorem sknp (x : Nibble) : Statement (.sknp x) :=
  of_fits (by simp [Instr.row]) _ _ rfl (encodeX_fits _ _ _)
theorem ldVxDt (x : Nibble) : Statement (.ldVxDt x) :=
  of_fits (by simp [Instr.row]) _ _ rfl (encodeX_fits _ _ _)
theorem ldVxK (x : Nibble) : Statement (.ldVxK x) :=
  of_fits (by simp [Instr.row]) _ _ rfl (encodeX_fits _ _ _)
theorem ldDtVx (x : Nibble) : Statement (.ldDtVx x) :=
  of_fits (by simp [Instr.row]) _ _ rfl (encodeX_fits _ _ _)
theorem ldStVx (x : Nibble) : Statement (.ldStVx x) :=
  of_fits (by simp [Instr.row]) _ _ rfl (encodeX_fits _ _ _)
theorem ldFVx (x : Nibble) : Statement (.ldFVx x) :=
  of_fits (by simp [Instr.row]) _ _ rfl (encodeX_fits _ _ _)
theorem ldBVx (x : Nibble) : Statement (.ldBVx x) :=
  of_fits (by simp [Instr.row]) _ _ rfl (encodeX_fits _ _ _)
theorem ldMemVx (x : Nibble) : Statement (.ldMemVx x) :=
  of_fits (by simp [Instr.row]) _ _ rfl (encodeX_fits _ _ _)
theorem ldVxMem (x : Nibble) : Statement (.ldVxMem x) :=
  of_fits (by simp [Instr.row]) _ _ rfl (encodeX_fits _ _ _)

end Sys2Proof.Laws.EncodingRow
end

