-- ==== Sys2Proof/Tests/Slice0.lean ====
section
/-! SUPPORT. Tests/Slice0.lean: ill-formed parameters refused, one word of each instruction decoded, the vectors
of spec/95_test_vectors.md a step at a time, and a witness for the hypotheses of every obligation. -/

namespace Sys2Proof.Tests

open Sys2Proof Sys2Proof.Machine Sys2Proof.Claims

/-! Ill-formed parameters (00 R7). -/

theorem test_default_params_well_formed : Params.default.wellFormed = true := by decide
theorem test_memory_below_80_refused : Params.memSizeOk { Params.default with memSize := 79 } = false := by decide
theorem test_memory_above_64k_refused : Params.memSizeOk { Params.default with memSize := 0x10001 } = false := by
  decide
theorem test_zero_width_refused : Params.displayOk { Params.default with displayW := 0 } = false := by decide
theorem test_zero_height_refused : Params.displayOk { Params.default with displayH := 0 } = false := by decide
theorem test_init_in_font_refused : Params.memInitOk { Params.default with memInit := [(79, 1)] } = false := by
  decide
theorem test_init_beyond_memory_refused :
    Params.memInitOk { Params.default with memInit := [(0x1000, 1)] } = false := by decide
theorem test_init_twice_refused :
    Params.memInitOk { Params.default with memInit := [(80, 1), (80, 2)] } = false := by decide

/-! One word of each instruction, its bits written out from the layouts of 30 R84 and the codes of R86. -/

theorem test_decode_cls : decodeWord 0b0000000011100000 = .instr .cls := by decide
theorem test_decode_ret : decodeWord 0b0000000011101110 = .instr .ret := by decide
theorem test_decode_jp : decodeWord 0b0001001000000100 = .instr (.jp 0x204) := by decide
theorem test_decode_call : decodeWord 0b0010001000000110 = .instr (.call 0x206) := by decide
theorem test_decode_seImm : decodeWord 0b0011001100010000 = .instr (.seImm 3 0x10) := by decide
theorem test_decode_sneImm : decodeWord 0b0100001100010001 = .instr (.sneImm 3 0x11) := by decide
theorem test_decode_seReg : decodeWord 0b0101000100100000 = .instr (.seReg 1 2) := by decide
theorem test_decode_ldImm : decodeWord 0b0110101000101111 = .instr (.ldImm 0xA 0x2F) := by decide
theorem test_decode_addImm : decodeWord 0b0111000000000001 = .instr (.addImm 0 1) := by decide
theorem test_decode_ldReg : decodeWord 0b1000000000010000 = .instr (.ldReg 0 1) := by decide
theorem test_decode_orReg : decodeWord 0b1000001000010001 = .instr (.orReg 2 1) := by decide
theorem test_decode_andReg : decodeWord 0b1000001000010010 = .instr (.andReg 2 1) := by decide
theorem test_decode_xorReg : decodeWord 0b1000001000010011 = .instr (.xorReg 2 1) := by decide
theorem test_decode_addReg : decodeWord 0b1000001000010100 = .instr (.addReg 2 1) := by decide
theorem test_decode_subReg : decodeWord 0b1000001000010101 = .instr (.subReg 2 1) := by decide
theorem test_decode_shr : decodeWord 0b1000001000010110 = .instr (.shr 2) := by decide
theorem test_decode_subnReg : decodeWord 0b1000001000010111 = .instr (.subnReg 2 1) := by decide
theorem test_decode_shl : decodeWord 0b1000001000011110 = .instr (.shl 2) := by decide
theorem test_decode_sneReg : decodeWord 0b1001000100100000 = .instr (.sneReg 1 2) := by decide
theorem test_decode_ldI : decodeWord 0b1010001100000000 = .instr (.ldI 0x300) := by decide
theorem test_decode_jpV0 : decodeWord 0b1011001100000000 = .instr (.jpV0 0x300) := by decide
theorem test_decode_rnd : decodeWord 0b1100001100001111 = .instr (.rnd 3 0x0F) := by decide
theorem test_decode_drw : decodeWord 0b1101000000010101 = .instr (.drw 0 1 5) := by decide
theorem test_decode_skp : decodeWord 0b1110000110011110 = .instr (.skp 1) := by decide
theorem test_decode_sknp : decodeWord 0b1110000110100001 = .instr (.sknp 1) := by decide
theorem test_decode_ldVxDt : decodeWord 0b1111001100000111 = .instr (.ldVxDt 3) := by decide
theorem test_decode_ldVxK : decodeWord 0b1111001100001010 = .instr (.ldVxK 3) := by decide
theorem test_decode_ldDtVx : decodeWord 0b1111000000010101 = .instr (.ldDtVx 0) := by decide
theorem test_decode_ldStVx : decodeWord 0b1111001000011000 = .instr (.ldStVx 2) := by decide
theorem test_decode_ldFVx : decodeWord 0b1111101000101001 = .instr (.ldFVx 0xA) := by decide
theorem test_decode_ldBVx : decodeWord 0b1111000000110011 = .instr (.ldBVx 0) := by decide
theorem test_decode_ldMemVx : decodeWord 0b1111000101010101 = .instr (.ldMemVx 1) := by decide
theorem test_decode_ldVxMem : decodeWord 0b1111001001100101 = .instr (.ldVxMem 2) := by decide

/-- 20 R56: the byte at the lower address is the high byte; the bytes after the word are given back. -/
theorem test_decode_bytes_big_endian :
    decodeBytes [0x12, 0x34, 0x56] = (.instr (.jp 0x234), [0x56]) := by decide
theorem test_decode_one_byte_truncated : decodeBytes [0x12] = (.rejected .truncated, [0x12]) := by decide
/-- 30 R88, R89: Unknown words of each family that has any. -/
theorem test_decode_unknown_words : [0x0000, 0x0123, 0x5121, 0x800F, 0x9121, 0xE1A2, 0xF11E].all
    (fun w => decodeWord w == .rejected (.unknown w)) = true := by decide

/-! Steps from the conventional start of 95_test_vectors.md: reset, the word at PC. -/

/-- The state after one step on word w from s. -/
def after (s : State) (w : Nat) : Option State :=
  match step (s.withFetchWord 16 w) with
  | .next t => some t
  | _ => none

/-- Register r after the word w. -/
def regAfter (s : State) (w : Nat) (r : Nibble) : Option Byte := (after s w).map (fun t => getV t r)

/-- Byte a after the word w. -/
def byteAfter (s : State) (w a : Nat) : Option Byte := (after s w).map (fun t => readByte t a)

/-- PC after the word w. -/
def pcAfter (s : State) (w : Nat) : Option Word := (after s w).map (·.pc)

/-- Cause, FAULT_ADDR, FAULT_OP and FAULT_INFO after the word w, where it faulted. -/
def faultAfter (s : State) (w : Nat) : Option (Nat × Nat × Nat × Nat) :=
  (after s w).bind (fun t => if t.run = .faulted then
    some ((causeCode t.fault.cause).toNat, t.fault.addr.toNat, (faultOpCode t.fault.op).toNat, t.fault.info.toNat)
    else none)

/-- Reset with two registers set. -/
def regs (x : Nibble) (a : Byte) (y : Nibble) (b : Byte) : State := setV x a (setV y b State.reset)

/-- Reset with the ports answering from one list each. -/
def scripted (random : List Byte) (keyDown : List KeyAnswer) (keyWait : List WaitAnswer)
    (display : List SinkAnswer) (s : State) : State :=
  { s with ports := { s.ports with random := random, keyDown := keyDown, keyWait := keyWait, display := display } }

/-- Reset with a sink that answers twice. -/
def drawing (s : State) : State := scripted [] [] [] [.done false, .done false] s

-- EN-1 to EN-7
theorem test_en1_unknown_is_reported :
    (after State.reset 0x0000).map (fun t => (t.pc, t.unk, t.unkAddr, t.unkOp, t.ret)) =
      some (0x202, true, 0x200, 0, .report 0x200 0) := by decide
theorem test_en3_fetch_at_the_last_byte : faultAfter { State.reset with pc := 0xFFF } 0 =
    some (1, 0xFFF, 0x10000, 0x1000) := by decide
theorem test_en4_fetch_at_n : faultAfter { State.reset with pc := 0x1000 } 0 =
    some (1, 0x1000, 0x10000, 0x1000) := by decide
theorem test_en5_odd_pc : pcAfter { State.reset with pc := 0x201 } 0x1234 = some 0x234 := by decide
theorem test_en7_unknown_fatal :
    faultAfter (State.construct { Params.default with policy := .fatal }) 0x0123 =
      some (5, 0x200, 0x0123, 0) := by decide
theorem test_en8_first_report_is_kept :
    (after { State.reset with unk := true, unkAddr := 0x222, unkOp := 1 } 0xF0FF).map
      (fun t => (t.pc, t.unkAddr, t.unkOp)) = some (0x202, 0x222, 1) := by decide

-- CF-2 to CF-22
theorem test_cf2_ret_on_empty_stack : faultAfter State.reset 0x00EE = some (4, 0x200, 0x00EE, 0) := by
  decide
theorem test_cf3_ret_reads_the_last_entry :
    (after { State.reset with sp := 16, stack := State.reset.stack.set 15 0x31E } 0x00EE).map
      (fun t => (t.pc, t.sp)) = some (0x31E, 15) := by decide
theorem test_cf4_jp_backwards : pcAfter { State.reset with pc := 0x20A } 0x1204 = some 0x204 := by decide
theorem test_cf8_call_pushes_the_next_address :
    (after { State.reset with sp := 15 } 0x2300).map (fun t => (t.pc, t.sp, stackAt t 15)) =
      some (0x300, 16, some 0x202) := by decide
theorem test_cf9_call_on_full_stack : faultAfter { State.reset with sp := 16 } 0x2300 =
    some (3, 0x200, 0x2300, 0) := by decide
theorem test_cf10_se_skips : pcAfter (regs 3 0x10 0 0) 0x3310 = some 0x204 := by decide
theorem test_cf11_se_does_not_skip : pcAfter (regs 3 0x10 0 0) 0x3311 = some 0x202 := by decide
theorem test_cf12_sne_skips : pcAfter (regs 3 0x10 0 0) 0x4311 = some 0x204 := by decide
theorem test_cf13_sne_does_not_skip : pcAfter (regs 3 0x10 0 0) 0x4310 = some 0x202 := by decide
theorem test_cf15_se_reg_skips : pcAfter (regs 1 7 2 7) 0x5120 = some 0x204 := by decide
theorem test_cf17_sne_reg_skips : pcAfter (regs 1 7 2 8) 0x9120 = some 0x204 := by decide
theorem test_cf18_sne_reg_same_register : pcAfter (regs 1 9 0 0) 0x9110 = some 0x202 := by decide
theorem test_cf20_jp_v0_not_reduced : pcAfter (regs 0 0xFF 1 0) 0xBFFF = some 0x10FE := by decide
theorem test_cf21_jp_v0_reads_v0_only : pcAfter (regs 0 4 3 0x50) 0xB300 = some 0x304 := by decide

-- AL-1 to AL-35
theorem test_al1_ld : regAfter State.reset 0x6A2F 0xA = some 0x2F := by decide
theorem test_al4_add_into_vf : regAfter (regs 0xF 0xFF 0 0) 0x7F01 0xF = some 0 := by decide
theorem test_al3_add_sets_no_flag : regAfter (regs 0 0xFF 0xF 0) 0x7001 0xF = some 0 := by decide
theorem test_al6_ld_reg : regAfter (regs 1 0x42 0 0) 0x8010 0 = some 0x42 := by decide
theorem test_al7_or : regAfter (regs 0 0x0F 1 0xF0) 0x8011 0 = some 0xFF := by decide
theorem test_al8_and : regAfter (regs 0 0x3C 1 0x0F) 0x8012 0 = some 0x0C := by decide
theorem test_al9_xor : regAfter (regs 0 0xFF 1 0x0F) 0x8013 0 = some 0xF0 := by decide
theorem test_al13_add_carry : (after (regs 0 0x80 1 0x80) 0x8014).map (fun t => (getV t 0, getV t 0xF)) =
    some (0, 1) := by decide
theorem test_al15_add_into_vf : regAfter (regs 0xF 0xF0 1 0x2F) 0x8F14 0xF = some 0x1F := by decide
theorem test_al18_sub_borrow : (after (regs 0 0x10 1 0x20) 0x8015).map (fun t => (getV t 0, getV t 0xF)) =
    some (0xF0, 0) := by decide
theorem test_al19_sub_equal : (after (regs 0 0x33 1 0x33) 0x8015).map (fun t => (getV t 0, getV t 0xF)) =
    some (0, 0) := by decide
theorem test_al24_shr_ignores_y : (after (regs 0 0x81 0xE 0) 0x80E6).map (fun t => (getV t 0, getV t 0xF)) =
    some (0x40, 1) := by decide
theorem test_al25_shr_into_vf : regAfter (regs 0xF 3 0 0) 0x8F06 0xF = some 1 := by decide
theorem test_al26_subn : (after (regs 0 0x10 1 0x30) 0x8017).map (fun t => (getV t 0, getV t 0xF)) =
    some (0x20, 1) := by decide
theorem test_al27_subn_borrow : (after (regs 0 0x30 1 0x10) 0x8017).map (fun t => (getV t 0, getV t 0xF)) =
    some (0xE0, 0) := by decide
theorem test_al29_shl : (after (regs 0 0x81 1 0) 0x801E).map (fun t => (getV t 0, getV t 0xF)) =
    some (2, 1) := by decide
theorem test_al32_shl_into_vf : regAfter (regs 0xF 0x81 0 0) 0x8F0E 0xF = some 2 := by decide
theorem test_al33_rnd : regAfter (scripted [0xA5] [] [] [] State.reset) 0xC30F 3 = some 5 := by decide
theorem test_al34_rnd_takes_a_draw :
    (after (scripted [0xA5, 1] [] [] [] State.reset) 0xC300).map (fun t => (getV t 3, t.ports.random)) =
      some (0, [1]) := by decide

-- IM-1 to IM-16
theorem test_im1_ld_i : (after State.reset 0xA300).map (·.i) = some 0x300 := by decide
theorem test_im3_glyph_a : (after (regs 0xA 0x0A 0 0) 0xFA29).map (·.i) = some 0x32 := by decide
theorem test_im5_glyph_not_masked : (after (regs 0 0xFF 1 0) 0xF029).map (·.i) = some 0x4FB := by decide
theorem test_im6_decimal : (after { regs 0 0xFE 1 0 with i := 0x300 } 0xF033).map (fun t => loadBytes t 0x300 3) =
    some [2, 5, 4] := by decide
theorem test_im10_decimal_out_of_bounds : faultAfter { regs 0 0x7B 1 0 with i := 0xFFE } 0xF033 =
    some (2, 0x200, 0xF033, 0x1000) := by decide
theorem test_im11_store : (after { regs 0 1 1 2 with i := 0x400 } 0xF155).map
    (fun t => (loadBytes t 0x400 2, t.i)) = some ([1, 2], 0x400) := by decide
theorem test_im13_store_out_of_bounds : byteAfter { regs 0 1 1 2 with i := 0xFFF } 0xF155 0xFFF = some 0 := by
  decide
theorem test_im14_load : (after (storeBytes { State.reset with i := 0x300 } 0x300 [2, 5, 4]) 0xF265).map
    (fun t => (getV t 0, getV t 1, getV t 2, t.i)) = some (2, 5, 4, 0x300) := by decide
theorem test_im15_load_all : regAfter (storeBytes { State.reset with i := 0x300 } 0x30F [0x77]) 0xFF65 0xF =
    some 0x77 := by decide

-- TM-1 to TM-5, TK-1 to TK-4
theorem test_tm1_read_dt : regAfter { State.reset with dt := 0x3C } 0xF307 3 = some 0x3C := by decide
theorem test_tm3_set_dt : (after { State.reset with dt := 9 } 0xF015).map (·.dt) = some 0 := by decide
theorem test_tm4_set_st : (after (regs 2 0x10 0 0) 0xF218).map (·.st) = some 0x10 := by decide
theorem test_tm5_read_dt_into_vf : regAfter { State.reset with dt := 0x80 } 0xFF07 0xF = some 0x80 := by
  decide
theorem test_tk1_floor : (tick State.reset).dt = 0 := by decide
theorem test_tk4_both : ((tick { State.reset with dt := 0xFF, st := 0xFF }).dt,
    (tick { State.reset with dt := 0xFF, st := 0xFF }).st) = (0xFE, 0xFE) := by decide

-- IO-1 to IO-18
theorem test_io1_cls : (after (drawing { State.reset with fb := [0, 5] }) 0x00E0).map (fun t => (t.fb, t.pc)) =
    some ([], 0x202) := by decide
theorem test_io4_row_wraps : (after (drawing (storeBytes { regs 0 60 1 31 with i := 0x300 } 0x300 [0xFF])) 0xD011).map
    (fun t => (t.fb, getV t 0xF)) = some ([1984, 1985, 1986, 1987, 2044, 2045, 2046, 2047], 0) := by decide
theorem test_io8_partial_erase : (after (drawing (storeBytes
    { regs 0 0 1 0 with i := 0x300, fb := [0, 1, 2, 3, 4, 5, 6, 7] } 0x300 [0x0F])) 0xD011).map
    (fun t => (t.fb, getV t 0xF)) = some ([0, 1, 2, 3], 1) := by decide
theorem test_io9_skp : pcAfter (scripted [] [.held true] [] [] (regs 1 4 0 0)) 0xE19E = some 0x204 := by
  decide
theorem test_io13_skp_key_16 : faultAfter (scripted [] [.held true] [] [] (regs 1 0x10 0 0)) 0xE19E =
    some (7, 0x200, 0xE19E, 0x10) := by decide
theorem test_io11_sknp : pcAfter (scripted [] [.held false] [] [] (regs 1 4 0 0)) 0xE1A1 = some 0x204 := by
  decide
theorem test_io12_sknp_held : pcAfter (scripted [] [.held true] [] [] (regs 1 4 0 0)) 0xE1A1 = some 0x202 := by
  decide
theorem test_io14_wait_ends : (after (scripted [] [] [.pressed 7] [] State.reset) 0xF30A).map
    (fun t => (getV t 3, t.pc, t.run)) = some (7, 0x202, .ready) := by decide
theorem test_io16_wait_opens : (after (scripted [] [] [.noKeyYet] [] State.reset) 0xF30A).map
    (fun t => (t.run, t.waitX, t.waitAddr, t.pc)) = some (.waitKey, 3, 0x200, 0x202) := by decide
theorem test_io18_cls_fails : faultAfter (scripted [] [] [] [.backendError]
    (State.construct { Params.default with sink := .external })) 0x00E0 = some (6, 0x200, 0x00E0, 0) := by
  decide

/-! Witnesses: for each obligation with hypotheses, a state and operands that meet them. -/

/-- The state of a result, the given one where there is none. -/
def resultState (d : State) : Result → State
  | .next t => t
  | _ => d

/-- The result is a next state. -/
def isNext : Result → Bool
  | .next _ => true
  | _ => false

theorem eq_next {r : Result} (d : State) (h : isNext r = true) : r = .next (resultState d r) := by
  cases r <;> simp_all [isNext, resultState]

/-- The state after an instruction, executed at s. -/
def execState (i : Instr) (s : State) : State := resultState s (exec i s)

/-- The state after a step. -/
def stepState (s : State) : State := resultState s (step s)

/-- A word at PC. -/
def withWord (s : State) (w : Nat) : State := s.withFetchWord 16 w

/-- A state that waits for a key: F30A at 0x200, no key yet. -/
def waiting (answers : List WaitAnswer) : State :=
  stepState (withWord (scripted [] [] (.noKeyYet :: answers) [] State.reset) 0xF30A)

/-- A faulted state: RET on an empty stack at 0x200. -/
def faulted : State := stepState (withWord State.reset 0x00EE)

/-- A ready state with a full stack, I at its highest value and a pixel set. -/
def full : State := { State.reset with sp := 16, i := 0xFFF, fb := [2047], pc := 0xFFE }

theorem inv_full : Inv full := by
  refine ⟨by decide, by decide, by decide, by decide, by decide, by decide,
    ?_, ?_, ?_, ?_, ?_⟩ <;> decide

theorem inv_waiting : Inv (waiting [.pressed 7]) := by
  refine ⟨?_, ?_, ?_, ?_, ?_, ?_, ?_, ?_, ?_, ?_, ?_⟩ <;> decide

theorem inv_faulted : Inv faulted := by
  refine ⟨?_, ?_, ?_, ?_, ?_, ?_, ?_, ?_, ?_, ?_, ?_⟩ <;> decide

theorem witness_ResetLeavesTheSpecValues_font : 79 < 80 := by decide
theorem witness_ResetLeavesTheSpecValues_init :
    80 ≤ 80 ∧ 80 < Params.default.memSize ∧ 80 ≤ 0xFFF ∧ 0xFFF < Params.default.memSize := by decide
theorem witness_InvariantHoldsAfterConstruction_smallest :
    Params.wellFormed { Params.default with memSize := 80, displayW := 1, displayH := 1 } = true := by decide
theorem witness_InvariantHoldsAfterConstruction_largest :
    Params.wellFormed { Params.default with memSize := 0x10000, memInit := [(0xFFFF, 1)] } = true := by decide

theorem witness_EveryStepKeepsTheInvariant_ready : Inv full ∧ step full = .next (stepState full) :=
  ⟨inv_full, eq_next _ (by decide)⟩
theorem witness_EveryStepKeepsTheInvariant_waitKey :
    Inv (waiting [.pressed 7]) ∧ step (waiting [.pressed 7]) = .next (stepState (waiting [.pressed 7])) :=
  ⟨inv_waiting, eq_next _ (by decide)⟩
theorem witness_EveryStepKeepsTheInvariant_faulted : Inv faulted ∧ step faulted = .next (stepState faulted) :=
  ⟨inv_faulted, eq_next _ (by decide)⟩

/-- Calls that go through a wait, a tick in it, a load and a reset. -/
def someCalls : List DriverCall := [.tick, .keySource, .load [1] 0x300, .read, .reset, .tick]

theorem witness_EveryDriverRunKeepsTheInvariant : Inv (waiting [.pressed 7]) ∧
    driverRun someCalls (waiting [.pressed 7]) =
      .next (resultState State.reset (driverRun someCalls (waiting [.pressed 7]))) :=
  ⟨inv_waiting, eq_next _ (by decide)⟩
theorem witness_EveryInvariantStateHasANextState : Inv full := inv_full
theorem witness_ParametersNeverChange : step full = .next (stepState full) ∧
    driverCall .reset full = .next (resultState full (driverCall .reset full)) :=
  ⟨eq_next _ (by decide), rfl⟩
theorem witness_ResetForgetsEverything : full.params = faulted.params ∧ full.ports = faulted.ports ∧
    full ≠ faulted := by decide

theorem witness_DecodingInvertsEncoding : Instr.wellFormed (.drw 0xF 0 0xF) = true := rfl
theorem witness_EncodingInvertsDecoding : decodeWord 0x8AE6 = .instr (.shr 0xA) ∧ (Instr.shr 0xA).row = 15 ∧
    decodeWord 0x8A0E = .instr (.shl 0xA) ∧ (Instr.shl 0xA).row = 17 ∧ decodeWord 0xD015 = .instr (.drw 0 1 5) := by
  decide
theorem witness_DecodingFollowsTheOpcodeTable : decodeWord 0x5120 = .instr (.seReg 1 2) ∧
    (opcodeTable.getD 6 ⟨0, 0⟩).fits 0x5120 = true ∧ (opcodeTable.getD 0 ⟨0, 0⟩).fits 0x00E0 = true ∧
    (opcodeTable.getD 32 ⟨0, 0⟩).fits 0xFF65 = true := by decide
theorem witness_DecodingFollowsTheOpcodeTable_unknown :
    (List.range 33).all (fun k => (opcodeTable.getD k ⟨0, 0⟩).fits 0x5121 == false) = true := by decide

theorem witness_StepRunsTheDecodedInstruction :
    (withWord full 0x00E0).run = .ready ∧ (withWord full 0x00E0).pc.toNat + 1 < (withWord full 0x00E0).params.memSize ∧
      decodeBytes [readByte (withWord full 0x00E0) (withWord full 0x00E0).pc.toNat,
        readByte (withWord full 0x00E0) ((withWord full 0x00E0).pc.toNat + 1)] = (.instr .cls, []) := by
  decide
theorem witness_FetchIsBigEndianAndBoundsChecked : full.run = .ready ∧ full.pc.toNat + 1 < full.params.memSize ∧
    full.params.memSize ≤ (0xFFF : Word).toNat + 1 ∧ ¬ full.params.memSize ≤ (0xFFF : Word).toNat ∧
    full.params.memSize ≤ (0x1000 : Word).toNat := by decide

/-- Reset with a policy for Unknown words, the word 0x5121 at PC. -/
def unknownAt (policy : UnknownPolicy) : State :=
  withWord (State.construct { Params.default with policy := policy }) 0x5121

theorem witness_UnknownWordsFollowThePolicy (policy : UnknownPolicy) : (unknownAt policy).run = .ready ∧
    fetch (unknownAt policy) = .word 0x5121 ∧ decodeWord 0x5121 = .rejected (.unknown 0x5121) ∧
    (unknownAt policy).params.policy = policy := by cases policy <;> decide

theorem witness_FatalFaultsArePrecise_ready : (withWord State.reset 0x00EE).run ≠ .faulted ∧
    step (withWord State.reset 0x00EE) = .next faulted ∧ faulted.run = .faulted ∧
    faulted.fault.cause ≠ some .backendError := by
  refine ⟨?_, eq_next (withWord State.reset 0x00EE) (by decide), ?_⟩ <;> decide
theorem witness_FatalFaultsArePrecise_waitKey : (waiting [.backendError]).run = .waitKey ∧
    step (waiting [.backendError]) = .next (stepState (waiting [.backendError])) ∧
    (stepState (waiting [.backendError])).run = .faulted := by
  refine ⟨?_, eq_next _ (by decide), ?_⟩ <;> decide
theorem witness_OnlyResetLeavesFaulted : faulted.run = .faulted ∧ faulted.ret = .fault faulted.fault ∧
    DriverCall.reset ∉ [DriverCall.tick, .step, .load [1] 0x200] ∧
    driverRun [.tick, .step, .load [1] 0x200] faulted =
      .next (resultState faulted (driverRun [.tick, .step, .load [1] 0x200] faulted)) := by
  refine ⟨?_, ?_, ?_, eq_next _ (by decide)⟩ <;> decide

/-- The hypotheses of PcAfterAStep, as a check. -/
def steps (s : State) (w : Nat) : Bool :=
  decide ((withWord s w).run = .ready) && decide (fetch (withWord s w) = .word (BitVec.ofNat 16 w)) &&
    isNext (step (withWord s w)) && decide ((stepState (withWord s w)).run ≠ .faulted)

theorem witness_PcAfterAStep : steps State.reset 0x1FFF = true ∧ steps State.reset 0x2300 = true ∧
    steps State.reset 0xB300 = true ∧ steps { State.reset with sp := 1 } 0x00EE = true ∧
    steps State.reset 0x6A2F = true ∧ steps State.reset 0x3000 = true ∧ steps State.reset 0x5121 = true := by
  decide

theorem witness_OnlyTheListedRegistersAreWritten :
    exec (.ldImm 3 1) full = .next (execState (.ldImm 3 1) full) ∧ (4 : Nibble) ∉ writes (.ldImm 3 1) := by
  refine ⟨rfl, ?_⟩; decide
theorem witness_OnlyCallAndRetUseTheStack :
    exec (.call 0x300) State.reset = .next (execState (.call 0x300) State.reset) ∧
    (execState (.call 0x300) State.reset).stack ≠ State.reset.stack ∧
    (execState (.call 0x300) State.reset).sp ≠ State.reset.sp ∧ (1 : Nat) ≠ State.reset.sp.toNat ∧
    (execState .ret { State.reset with sp := 1 }).sp ≠ 1 := by
  refine ⟨eq_next _ (by decide), ?_⟩; decide
theorem witness_OnlyTwoInstructionsWriteI :
    exec (.ldI 0xFFF) State.reset = .next (execState (.ldI 0xFFF) State.reset) ∧
    (execState (.ldI 0xFFF) State.reset).i ≠ State.reset.i := by
  refine ⟨rfl, ?_⟩; decide

/-- V0..VF = 1 and I at the highest address a 16-register store may start at. -/
def storing : State := { State.reset with v := Vector.replicate 16 1, i := 0xFF0 }

theorem witness_OnlyTwoInstructionsWriteMemory :
    exec (.ldMemVx 0xF) storing = .next (execState (.ldMemVx 0xF) storing) ∧
    readByte (execState (.ldMemVx 0xF) storing) 0xFFF ≠ readByte storing 0xFFF ∧
    readByte (execState (.ldBVx 0) storing) 0xFF2 ≠ readByte storing 0xFF2 := by
  refine ⟨eq_next _ (by decide), ?_⟩; decide
theorem witness_StepNeverTicks : (waiting [.noKeyYet]).run ≠ .ready ∧
    step (waiting [.noKeyYet]) = .next (stepState (waiting [.noKeyYet])) ∧ steps (regs 0 5 1 0) 0xF015 = true ∧
    steps (regs 0 5 1 0) 0xF018 = true := by
  refine ⟨?_, eq_next _ (by decide), ?_⟩ <;> decide
theorem witness_StepNeverTicks_fetch : { State.reset with pc := 0xFFF }.run = .ready ∧
    fetch { State.reset with pc := 0xFFF } = .outOfBounds 0x1000 ∧
    isNext (step { State.reset with pc := 0xFFF }) = true := by decide
theorem witness_NoInstructionReadsSt : step full = .next (stepState full) := eq_next _ (by decide)

/-- Ports that answer, by lists of their own. -/
def otherPorts : Ports := { Ports.reset with
  random := [0x3C], keyDown := [.held true], keyWait := [.pressed 2], display := [.done true] }

/-- The hypotheses of PortAnswersReachOnlyTheirInstruction, as a check. -/
def answers (i : Instr) (s : State) (p : Ports) : Bool :=
  isNext (exec i s) && isNext (exec i { s with ports := p }) && decide ((execState i s).run ≠ .faulted) &&
    decide ((execState i { s with ports := p }).run ≠ .faulted)

theorem witness_PortAnswersReachOnlyTheirInstruction :
    [.rnd 3 0xFF, .cls, .drw 0 1 5, .skp 0, .sknp 0, .ldVxK 3, .ldImm 3 1].all (fun i =>
      answers i (scripted [0xA5] [.held false] [.noKeyYet] [.done false] State.reset) otherPorts) = true := by
  decide

theorem witness_JumpsGoToTheirTargets : State.reset.run = .ready ∧
    State.reset.params.memSize ≤ (0xFFF : Addr12).toNat + 1 ∧
    (regs 0 0xFF 1 0).params.memSize ≤ (0xF00 : Addr12).toNat + (getV (regs 0 0xFF 1 0) 0).toNat + 1 := by decide
theorem witness_CallPushesAndJumps : (15 : Word).toNat < 16 ∧ 16 ≤ full.sp.toNat := by decide
theorem witness_RetPopsTheReturnAddress : (1 ≤ full.sp.toNat ∧ stackAt full (full.sp.toNat - 1) = some 0) ∧
    (full.sp.toNat ≤ 16 ∧ 1 ≤ full.sp.toNat) ∧ State.reset.sp.toNat = 0 := by decide
theorem witness_RetStopsWhereTheStackHasNoEntry : 16 < (17 : Word).toNat ∧ 16 < (0xFFFF : Word).toNat := by decide
theorem witness_RetComesBackAfterTheCall :
    (withWord State.reset 0x2300).run = .ready ∧ fetch (withWord State.reset 0x2300) = .word (0x2#4 ++ 0x300#12) ∧
    (withWord State.reset 0x2300).sp.toNat < 16 ∧
    step (withWord State.reset 0x2300) = .next (stepState (withWord State.reset 0x2300)) ∧
    (stepState (withWord State.reset 0x2300)).sp = 1 := by
  refine ⟨?_, ?_, ?_, eq_next _ (by decide), ?_⟩ <;> decide
theorem witness_AddWritesCarryThenSum : (0xE : Nibble) ≠ 0xF := by decide
theorem witness_SubtractionsWriteStrictFlag : (0 : Nibble) ≠ 0xF := by decide
theorem witness_ShiftsWriteTheBitShiftedOut : (0xE : Nibble) ≠ 0xF := by decide
theorem witness_RandomTakesOneAnswer : ∃ kk kk' : Byte, kk = 0 ∧ kk' = 0xFF := ⟨0, 0xFF, rfl, rfl⟩
theorem witness_PortsAnswerFromTheirListsOrFreely :
    otherPorts.random = [0x3C] ∧ otherPorts.keyDown = [.held true] ∧ otherPorts.keyWait = [.pressed 2] ∧
    otherPorts.display = [.done true] ∧ State.reset.ports.random = [] ∧ State.reset.ports.keyDown = [] ∧
    State.reset.ports.keyWait = [] ∧ State.reset.ports.display = [] := by decide
theorem witness_FontGlyphsAreWhereFx29Points : 4 < 5 ∧ (getV (regs 0xA 0xF 0 0) 0xA).toNat < 16 := by
  decide
theorem witness_DecimalStore : Memory.wf State.reset.params State.reset.mem = true ∧
    (0xFFD : Word).toNat + 2 < State.reset.params.memSize ∧ State.reset.params.memSize ≤ (0xFFE : Word).toNat + 2 := by
  decide
theorem witness_BlockStore : Memory.wf storing.params storing.mem = true ∧
    storing.i.toNat + (0xF : Nibble).toNat < storing.params.memSize ∧
    storing.params.memSize ≤ (0xFF1 : Word).toNat + (0xF : Nibble).toNat := by decide
theorem witness_BlockLoad : storing.i.toNat + (0xF : Nibble).toNat < storing.params.memSize ∧
    storing.params.memSize ≤ full.i.toNat + (1 : Nibble).toNat ∧ (0xE : Nibble) ≤ 0xF ∧ (0xE : Nibble) < 0xF := by
  decide
theorem witness_BlockStoreThenLoadRoundTrips : Memory.wf storing.params storing.mem = true ∧ storing.run = .ready ∧
    exec (.ldMemVx 0xF) storing = .next (execState (.ldMemVx 0xF) storing) ∧
    (execState (.ldMemVx 0xF) storing).run = .ready := by
  refine ⟨?_, ?_, eq_next _ (by decide), ?_⟩ <;> decide
/-- The hypotheses of StoresAreSeenByTheNextFetch, as a check. -/
def storesAt (i : Instr) (s : State) : Bool :=
  Memory.wf s.params s.mem && decide (s.run = .ready) && decide (s.pc.toNat + 1 < s.params.memSize) &&
    isNext (exec i s) && decide ((execState i s).run = .ready)

/-- Both bytes of the word at the top of memory are stored; one of them, by each store and at each end. -/
theorem witness_StoresAreSeenByTheNextFetch : storesAt (.ldMemVx 0xF) { storing with pc := 0xFFE } = true ∧
    storesAt (.ldMemVx 1) { storing with pc := 0xFEF } = true ∧
    storesAt (.ldMemVx 1) { storing with pc := 0xFF1 } = true ∧
    storesAt (.ldBVx 0) { storing with pc := 0xFF2 } = true ∧
    storesAt (.ldBVx 0) { storing with pc := 0xFEF } = true := by decide
theorem witness_StoresAreSeenByTheNextFetch_half_a_word :
    fetch (execState (.ldBVx 0) (regs 0 0xFE 1 0)) = .word 0 ∧
    fetch (execState (.ldBVx 0) { regs 0 0xFE 1 0 with i := 0x201 }) = .word 0x0002 ∧
    fetch (execState (.ldBVx 0) { regs 0 0xFE 1 0 with i := 0x1FE }) = .word 0x0400 := by decide
theorem witness_DelayTimerRoundTripIsLossless : exec (.ldDtVx 0) full = .next (execState (.ldDtVx 0) full) ∧
    exec (.ldVxDt 1) (execState (.ldDtVx 0) full) = .next (execState (.ldVxDt 1) (execState (.ldDtVx 0) full)) :=
  ⟨rfl, rfl⟩

/-- The display sink's next answer. -/
def sinkSays (a : SinkAnswer) (sink : SinkKind) : State :=
  scripted [] [] [] [a, .done false] { State.construct { Params.default with sink := sink } with i := 0xFFB }

theorem witness_ClearTheDisplay : (sinkSays (.done false) .reference).params.sink = .reference ∧
    (takeSink (sinkSays (.done false) .reference)).1 = .done false ∧
    (takeSink (sinkSays .backendError .reference)).1 = .backendError := by decide
theorem witness_DrawASprite : (sinkSays (.done true) .reference).params.sink = .reference ∧
    (takeSink (sinkSays (.done true) .reference)).1 = .done true ∧
    0xFFB + (5 : Nibble).toNat ≤ State.reset.params.memSize ∧
    State.reset.params.memSize < 0xFFB + (6 : Nibble).toNat ∧ (6 : Nibble) ≠ 0 ∧
    (takeSink (sinkSays .backendError .reference)).1 = .backendError := by decide
/-- The default parameters with another display. -/
def display (w h : Nat) : Params := { Params.default with displayW := w, displayH := h }

theorem witness_SpriteIsXoredPixelByPixel : Frame.rising [0, 7] = true ∧ 1 ≤ (display 1 1).displayW ∧
    1 ≤ (display 1 1).displayH ∧ 8 ≤ (display 8 1).displayW ∧
    [(0xFF : Byte)].length ≤ (display 8 1).displayH := by decide
theorem witness_SpriteIsXoredPixelByPixel_elsewhere : ∀ r b : Nat, r < [(0xFF : Byte)].length → b < 8 →
    8 ≠ spritePixel (display 8 1) 0 0 r b := by
  intro r b _ hb
  simp [spritePixel, display]; omega

/-- 44 R201 by hand: on a display 1 wide two set bits turn the one pixel on and off again, the second colliding; on a
display 4 wide and 2 high row 0xF8 sets four pixels and takes one back. -/
theorem test_narrow_display_draws_a_pixel_twice : setSprite (display 1 1) 0 0 [0xC0] [] = ([], true) ∧
    setSprite (display 4 2) 0 0 [0xF8] [] = ([1, 2, 3], true) ∧
    pixelAfter (display 4 2) 0 0 [0xF8] [] 0 8 = false ∧ pixelAfter (display 4 2) 0 0 [0xF8] [] 0 4 = true := by
  decide

/-- Reset with glyph 0 to be drawn, the sink answering twice. -/
def glyph : State := drawing State.reset

theorem witness_DrawingTwiceErasesAndCollides : glyph.params.sink = .reference ∧ Frame.rising glyph.fb = true ∧
    (0 : Nibble) ≠ 0xF ∧ exec (.drw 0 0 5) glyph = .next (execState (.drw 0 0 5) glyph) ∧
    (execState (.drw 0 0 5) glyph).run ≠ .faulted ∧
    exec (.drw 0 0 5) (execState (.drw 0 0 5) glyph) =
      .next (execState (.drw 0 0 5) (execState (.drw 0 0 5) glyph)) ∧
    (execState (.drw 0 0 5) (execState (.drw 0 0 5) glyph)).run ≠ .faulted ∧ glyph.fb = [] ∧
    readByte glyph (glyph.i.toNat + 4) ≠ 0 := by
  refine ⟨?_, ?_, ?_, eq_next _ (by decide), ?_, eq_next _ (by decide), ?_⟩ <;> decide
theorem witness_ExternalSinkAnswersTheCollision : (sinkSays (.done true) .external).params.sink = .external ∧
    (takeSink (sinkSays (.done true) .external)).1 = .done true ∧
    (sinkSays (.done true) .external).i.toNat + (5 : Nibble).toNat ≤
      (sinkSays (.done true) .external).params.memSize := by decide
theorem witness_KeySkips : (getV (regs 1 15 2 16) 1).toNat ≤ 15 ∧ 15 < (getV (regs 1 15 2 16) 2).toNat ∧
    (takeKeyDown (scripted [] [.held true] [] [] (regs 1 15 2 16))).1 = .held true ∧
    (takeKeyDown (scripted [] [.backendError] [] [] (regs 1 15 2 16))).1 = .backendError := by decide

/-- The Key Source's next answer to a wait. -/
def keySays (a : WaitAnswer) : State := scripted [] [] [a] [] State.reset

theorem witness_WaitForAKey : (takeKeyWait (keySays (.pressed 0xF))).1 = .pressed 0xF ∧
    (takeKeyWait (keySays .noKeyYet)).1 = .noKeyYet ∧
    (takeKeyWait (keySays .backendError)).1 = .backendError := by decide
theorem witness_TheOpenWaitGoesOn : [.pressed 0xF, .noKeyYet, .backendError].all (fun a =>
    (waiting [a]).run == .waitKey && (takeKeyWait (waiting [a])).1 == a) = true := by decide
theorem witness_DriverCallsDuringAWait : (waiting []).run = .waitKey := by decide
theorem witness_LoaderChecksThenCopies : Memory.wf State.reset.params State.reset.mem = true ∧
    0xFFF + [(1 : Byte)].length ≤ State.reset.params.memSize ∧
    0x1000 + ([] : List Byte).length ≤ State.reset.params.memSize ∧ (-1 : Int) < 0 ∧
    (State.reset.params.memSize : Int) < 0x1000 + [(1 : Byte)].length := by decide
theorem witness_TerminalStatesStayPut : terminal (withWord State.reset 0x1200) = true ∧
    terminal (withWord { State.reset with pc := 0x201 } 0x1201) = true ∧
    terminal (withWord State.reset 0x1202) = false := by decide

end Sys2Proof.Tests
end

/-! PROOFS. The statements of the state's family (spec 10_state.md): the parameters (O7), the registers an instruction
leaves alone (O19), the memory it leaves alone (O22) and the font (O41). -/

namespace Sys2Proof.Machine

open Sys2Proof.Claims

/-! The parameters under every operation (10 R20). -/

theorem waitOnce_params (s : State) : (waitOnce s).params = s.params := by
  have hp : (takeKeyWait s).2.params = s.params := by rw [takeKeyWait_snd]
  rcases waitOnce_cases s with ⟨-, h⟩ | ⟨k, -, h⟩ | ⟨-, h⟩ <;>
    exact (congrArg State.params h).trans hp

theorem unknownWord_params (w : Word) (s : State) : (unknownWord w s).params = s.params := by
  rcases unknownWord_cases w s with ⟨-, h⟩ | ⟨-, h⟩ | ⟨-, h⟩ <;>
    exact (congrArg State.params h :)

theorem load_params (bytes : List Byte) (offset : Int) (s : State) : (load bytes offset s).2.params = s.params := by
  rcases load_cases bytes offset s with ⟨-, -, h⟩ | ⟨-, h⟩ <;>
    exact congrArg (fun r => r.2.params) h

theorem step_params {s t : State} (h : step s = .next t) : t.params = s.params := by
  rcases step_cases s with ⟨-, info, -, hs⟩ | ⟨-, w, i, -, -, hs⟩ | ⟨-, w, r, -, -, hs⟩ | ⟨-, hs⟩ | ⟨-, hs⟩ <;>
    rw [hs] at h
  · cases h; rfl
  · exact (exec_effect i _ t h).params
  · cases h; exact unknownWord_params w _
  · cases h; exact waitOnce_params s
  · cases h; rfl

theorem driverCall_params {c : DriverCall} {s t : State} (h : driverCall c s = .next t) : t.params = s.params := by
  cases c <;> simp only [driverCall] at h
  case step =>
    split at h
    · cases h
    · exact step_params h
  case keySource =>
    split at h
    · exact step_params h
    · cases h
  case tick => cases h; rfl
  case load bytes offset => split at h <;> cases h; exact load_params bytes offset s
  case reset => cases h; rfl
  case read => cases h; rfl

/-- Settles O7: each transition of `step_cases` and each driver's call keeps the parameters. -/
theorem parametersNeverChange : Obligations.ParametersNeverChange :=
  fun _ _ => ⟨step_params, fun _ => driverCall_params⟩

/-! The general registers under the operations that write none (10 R23). -/

theorem sinkFailed_v (s : State) : (sinkFailed s).v = s.v := by
  unfold sinkFailed; split <;> rfl

/-- Clearing the display writes no register, whatever the sink answers (44 R203). -/
theorem sinkClear_v {s u : State} {ok : Bool} (h : sinkClear s = (ok, u)) : u.v = s.v := by
  obtain ⟨a, ports, he⟩ := takeSink_eq s
  rw [sinkClear, he] at h
  cases a with
  | backendError => cases h; exact sinkFailed_v _
  | done c => cases hk : s.params.sink <;> simp only [hk] at h <;> cases h <;> rfl

/-- The sink's own part of a draw writes no register, whatever it answers (44 R202). -/
theorem sinkDraw_v {x y : Nat} {rows : List Byte} {s u : State} {hit : Option Bool}
    (h : sinkDraw x y rows s = (hit, u)) : u.v = s.v := by
  obtain ⟨a, ports, he⟩ := takeSink_eq s
  rw [sinkDraw, he] at h
  cases a with
  | backendError => cases h; exact sinkFailed_v _
  | done c => cases hk : s.params.sink <;> simp only [hk] at h <;> cases h <;> rfl

theorem keySkip_v (i : Instr) (key : Byte) (want : Bool) (s : State) : (keySkip i key want s).v = s.v := by
  obtain ⟨a, ports, he⟩ := takeKeyDown_eq s
  rw [keySkip, he]
  split
  · rfl
  · cases a with
    | held down => exact skipIf_v _ _
    | backendError => rfl

theorem takeRandom_v (s : State) : (takeRandom s).2.v = s.v := by rw [takeRandom_snd]

/-- One look at an open wait writes no register but V[WAIT_X] (44 R206). -/
theorem getV_waitOnce_of_ne {s : State} {r : Nibble} (h : r ≠ s.waitX) : getV (waitOnce s) r = getV s r := by
  obtain ⟨a, ports, he⟩ := takeKeyWait_eq s
  rw [waitOnce, he]
  cases a with
  | noKeyYet => rfl
  | pressed k => exact (getV_setV _ _ _ _).trans (if_neg h)
  | backendError => rfl

/-- A register write leaves every other register as it is (10 R21). -/
theorem getV_setV_of_ne {x r : Nibble} (h : r ≠ x) (b : Byte) (s : State) : getV (setV x b s) r = getV s r := by
  simp [h]

/-- The flagged write leaves every register but V[x] and VF as it is (41 R145). -/
theorem getV_writeFlagged_of_not_mem {x r : Nibble} (h : r ∉ [x, 0xF]) (f : Bool) (b : Byte) (s : State) :
    getV (writeFlagged x f b s) r = getV s r := by
  obtain ⟨hx, hF⟩ : r ≠ x ∧ r ≠ 0xF := by simpa using h
  rw [getV_writeFlagged, if_neg hx, if_neg hF]

/-- A register that Fx65 does not list has a number above x (42 R164). -/
theorem lt_of_not_mem_writes_ldVxMem {x r : Nibble} (h : r ∉ writes (.ldVxMem x)) : x.toNat < r.toNat := by
  by_contra hle
  exact h (List.mem_map.2 ⟨r.toNat, List.mem_range.2 (by omega), by simp⟩)

/-- The block load leaves the registers above x as they are (42 R164). -/
theorem getV_setVs_loadBytes_of_lt (s : State) (base : Nat) {x r : Nibble} (h : x.toNat < r.toNat) :
    getV (setVs s 0 (loadBytes s base (regCount x))) r = getV s r := by
  have hlen : (loadBytes s base (regCount x)).length = x.toNat + 1 := length_loadBytes _ _ _
  rw [getV_setVs _ _ _ (by omega), dif_neg (by omega)]

/-- An instruction leaves every register it does not list as it is (10 R23). -/
theorem getV_exec_of_not_mem_writes {i : Instr} {s t : State} (h : exec i s = .next t) {r : Nibble}
    (hr : r ∉ writes i) : getV t r = getV s r := by
  cases i
  case cls =>
    simp only [exec, execCls] at h
    split at h <;> cases h <;> next hc => exact getV_congr (sinkClear_v hc) r
  case drw x y n =>
    simp only [exec, execDrw] at h
    split at h
    · cases h; rfl
    · split at h <;> cases h
      · next hc =>
        exact (getV_setV_of_ne (mt List.mem_singleton.2 hr) _ _).trans (getV_congr (sinkDraw_v hc) r)
      · next hc => exact getV_congr (sinkDraw_v hc) r
  case skp x | sknp x => cases h; exact getV_congr (keySkip_v _ _ _ s) r
  case ldVxK x => cases h; exact getV_waitOnce_of_ne (s := enterWait x s) (mt List.mem_singleton.2 hr)
  case ret =>
    simp only [exec, execRet] at h
    split at h
    · cases h; rfl
    · split at h <;> cases h; rfl
  case call n =>
    simp only [exec, execCall] at h
    split at h <;> cases h <;> rfl
  case jp | jpV0 | ldI | ldFVx | ldDtVx | ldStVx => cases h; rfl
  case seImm | sneImm | seReg | sneReg => cases h; exact getV_skipIf _ _ _
  case ldImm | addImm | ldReg | orReg | andReg | xorReg | ldVxDt =>
    cases h; exact getV_setV_of_ne (mt List.mem_singleton.2 hr) _ _
  case rnd x kk =>
    cases h
    exact (getV_setV_of_ne (mt List.mem_singleton.2 hr) _ _).trans (getV_congr (takeRandom_v s) r)
  case addReg | subReg | shr | subnReg | shl => cases h; exact getV_writeFlagged_of_not_mem hr _ _ _
  case ldBVx x =>
    simp only [exec, execLdBVx] at h
    split at h <;> cases h <;> rfl
  case ldMemVx x =>
    simp only [exec, execLdMemVx] at h
    split at h <;> cases h <;> rfl
  case ldVxMem x =>
    simp only [exec, execLdVxMem] at h
    split at h <;> cases h
    · rfl
    · exact getV_setVs_loadBytes_of_lt s _ (lt_of_not_mem_writes_ldVxMem hr)

/-- Settles O19: the case split over the 33 instructions is `getV_exec_of_not_mem_writes`. -/
theorem onlyTheListedRegistersAreWritten : Obligations.OnlyTheListedRegistersAreWritten :=
  fun _ _ _ h _ hr => getV_exec_of_not_mem_writes h hr

/-! Memory under every instruction (10 R34). -/

/-- A byte that a store changed lies among the bytes stored. -/
theorem Memory.mem_range_of_read_writeBytes_ne {p : Params} {m : Memory} {base a : Nat} {bs : List Byte}
    (h : Memory.read p (Memory.writeBytes p m base bs) a ≠ Memory.read p m a) : base ≤ a ∧ a < base + bs.length := by
  by_contra hout
  exact h (Memory.read_writeBytes_other p m base bs (by omega))

/-- Settles O22, from the three ways `ExecEffect.mem` gives for memory after an instruction. -/
theorem onlyTwoInstructionsWriteMemory : Obligations.OnlyTwoInstructionsWriteMemory := by
  intro i s t a h hne
  have he := exec_effect i s t h
  rcases he.mem with hm | ⟨x, rfl, hN, hm⟩ | ⟨x, rfl, hN, hm⟩
  · exact absurd (readByte_congr he.params hm a) hne
  · rw [readByte, he.params, hm] at hne
    obtain ⟨hlo, hhi⟩ := Memory.mem_range_of_read_writeBytes_ne hne
    have hlen : (decimalDigits (getV s x)).length = 3 := rfl
    exact ⟨by omega, hlo, .inl ⟨x, rfl, by omega⟩⟩
  · rw [readByte, he.params, hm] at hne
    obtain ⟨hlo, hhi⟩ := Memory.mem_range_of_read_writeBytes_ne hne
    rw [length_getVs] at hhi
    exact ⟨by omega, hlo, .inr ⟨x, rfl, by omega⟩⟩

/-! The font (10 R43). -/

/-- The glyph address is exact: 5 times any 8-bit value fits in 16 bits (42 R161). -/
theorem toNat_glyphAddr (b : Byte) : (glyphAddr b).toNat = 5 * b.toNat := by
  have := b.isLt
  simp only [glyphAddr, Config.fontBase, Config.glyphSize, BitVec.toNat_ofNat]
  omega

/-- After a construction the first 80 bytes are the font (10 R40). -/
theorem readByte_construct_of_lt (p : Params) {a : Nat} (h : a < 80) : readByte (State.construct p) a = p.font[a] :=
  (Memory.read_nil p a).trans (dif_pos h)

/-- Settles O41: Fx29 points I at 5d, and the font lies at address 0. -/
theorem fontGlyphsAreWhereFx29Points : Obligations.FontGlyphsAreWhereFx29Points := by
  intro p s x r hr hd
  have hi := toNat_glyphAddr (getV s x)
  refine ⟨_, rfl, hi, ?_⟩
  simp only [hi]
  exact readByte_construct_of_lt p (by omega)

end Sys2Proof.Machine

/-! PROOFS. The statements of the encoding's family (spec 30_encoding.md): the encoder and the decoder are inverse
(O9, O10), the decoder follows the opcode table (O11), the words of the spec's vectors (O12), and a next state from
every state of the invariant (O6). -/

namespace Sys2Proof

/-! Decoding inverts encoding (30 R84, R86). -/

/-- The fields of an assembled word are the operands it was assembled from (30 R84); one case a family's decoder. -/
theorem decodeWord_encode (i : Instr) : decodeWord (encode i) = .instr i := by
  cases i
  case cls | ret => rfl
  case jp | call | ldI | jpV0 | seImm | sneImm | ldImm | addImm | rnd | drw => simp [encode, decodeWord]
  case seReg | sneReg => simp [encode, decodeWord, decodeN0]
  case ldReg | orReg | andReg | xorReg | addReg | subReg | shr | subnReg | shl =>
    simp [encode, decodeWord, decodeOp8]
  case skp | sknp => simp [encode, decodeWord, decodeOpE]
  case ldVxDt | ldVxK | ldDtVx | ldStVx | ldFVx | ldBVx | ldMemVx | ldVxMem =>
    simp [encode, decodeWord, decodeOpF]

/-- The bytes of a word decode as the word, whatever follows them (30 R82). -/
theorem decodeBytes_wordBytes_append (w : Word) (rest : List Byte) :
    decodeBytes (wordBytes w ++ rest) = (decodeWord w, rest) := by
  simp [wordBytes, decodeBytes, composeWord_wordBytes]

/-- Settles O9, from the word by `decodeWord_encode` and from the bytes by `decodeBytes_wordBytes_append`. -/
theorem decodingInvertsEncoding : Obligations.DecodingInvertsEncoding := by
  intro i _
  have hw := decodeWord_encode i
  exact ⟨hw, fun rest => by rw [encodeBytes, decodeBytes_wordBytes_append, hw]⟩

/-! Encoding inverts decoding (30 R86, R87): a word is its family nibble and its fields put together again. -/

theorem encodeA_of_fields {w : Word} {op : Nibble} (hop : fieldOp w = op) : encodeA op (fieldNnn w) = w := by
  apply BitVec.eq_of_toNat_eq
  rw [← hop, toNat_encodeA, toNat_fieldOp, toNat_fieldNnn]; omega

theorem encodeXK_of_fields {w : Word} {op : Nibble} {kk : Byte} (hop : fieldOp w = op) (hkk : fieldKk w = kk) :
    encodeXK op (fieldX w) kk = w := by
  apply BitVec.eq_of_toNat_eq
  rw [← hop, ← hkk, toNat_encodeXK, toNat_fieldOp, toNat_fieldX, toNat_fieldKk]; omega

theorem encodeXYN_of_fields {w : Word} {op n : Nibble} (hop : fieldOp w = op) (hn : fieldN w = n) :
    encodeXYN op (fieldX w) (fieldY w) n = w := by
  apply BitVec.eq_of_toNat_eq
  rw [← hop, ← hn, toNat_encodeXYN, toNat_fieldOp, toNat_fieldX, toNat_fieldY, toNat_fieldN]; omega

/-- Clearing the y field puts 0 in the place of y. -/
theorem encodeXYN_and_FF0F (op x y n : Nibble) : encodeXYN op x y n &&& 0xFF0F#16 = encodeXYN op x 0x0#4 n := by
  show (op ++ x ++ y ++ n : BitVec 16) &&& (0xF#4 ++ 0xF#4 ++ 0x0#4 ++ 0xF#4) = _
  rw [BitVec.and_append, BitVec.and_append, BitVec.and_append]
  simp [Laws.EncodingRow.nibble_and, encodeXYN]

/-- With y = 0, as the encoder writes the shifts (30 R87, log 19). -/
theorem encodeXYN_zero_of_fields {w : Word} {op n : Nibble} (hop : fieldOp w = op) (hn : fieldN w = n) :
    encodeXYN op (fieldX w) 0x0#4 n = w &&& 0xFF0F#16 := by
  rw [← encodeXYN_and_FF0F op (fieldX w) (fieldY w) n, encodeXYN_of_fields hop hn]

/-- The word without the bits that instruction i ignores: the y field of the two shifts (30 R87). -/
def Instr.clearIgnored (i : Instr) (w : Word) : Word := if i.row = 15 ∨ i.row = 17 then w &&& 0xFF0F else w

/-- What a decoder may answer for the word w: an instruction whose word is w but for ignored bits, or that w is
Unknown (30 R86). -/
def Decoded.Answers (w : Word) : Decoded → Prop
  | .instr i => encode i = i.clearIgnored w
  | .rejected r => r = .unknown w

theorem decodeOp0_answers (w : Word) : (decodeOp0 w).Answers w := by
  unfold decodeOp0
  split
  · next h => exact h.symm
  · split
    · next h => exact h.symm
    · rfl

/-- Families 5 and 9, where the instruction's word has n = 0. -/
theorem decodeN0_answers {w : Word} {i : Instr} (hi : fieldN w = 0x0#4 → encode i = i.clearIgnored w) :
    (decodeN0 i w).Answers w := by
  unfold decodeN0
  split
  · next hn => exact hi hn
  · rfl

theorem decodeOp8_answers {w : Word} (hop : fieldOp w = 0x8#4) : (decodeOp8 w).Answers w := by
  unfold decodeOp8
  split
  case h_7 | h_9 => exact encodeXYN_zero_of_fields hop ‹_›
  case h_10 => rfl
  all_goals exact encodeXYN_of_fields hop ‹_›

theorem decodeOpE_answers {w : Word} (hop : fieldOp w = 0xE#4) : (decodeOpE w).Answers w := by
  unfold decodeOpE
  split
  case h_3 => rfl
  all_goals exact encodeXK_of_fields hop ‹_›

theorem decodeOpF_answers {w : Word} (hop : fieldOp w = 0xF#4) : (decodeOpF w).Answers w := by
  unfold decodeOpF
  split
  case h_9 => rfl
  all_goals exact encodeXK_of_fields hop ‹_›

/-- Everything `decodeWord` can answer, one case a family (30 R86). -/
theorem decodeWord_answers (w : Word) : (decodeWord w).Answers w := by
  unfold decodeWord
  split
  case h_1 => exact decodeOp0_answers w
  case h_6 | h_10 => exact decodeN0_answers (encodeXYN_of_fields ‹_›)
  case h_9 => exact decodeOp8_answers ‹_›
  case h_14 => exact encodeXYN_of_fields ‹_› rfl
  case h_15 => exact decodeOpE_answers ‹_›
  case h_16 =>
    simp only [imp_false] at *
    have hop : fieldOp w = 0xF#4 := by bv_omega
    exact decodeOpF_answers hop
  case h_2 | h_3 | h_11 | h_12 => exact encodeA_of_fields ‹_›
  all_goals exact encodeXK_of_fields ‹_› rfl

theorem encode_of_decodeWord {w : Word} {i : Instr} (h : decodeWord w = .instr i) : encode i = i.clearIgnored w :=
  (h ▸ decodeWord_answers w :)

theorem eq_unknown_of_decodeWord {w : Word} {r : Reject} (h : decodeWord w = .rejected r) : r = .unknown w :=
  (h ▸ decodeWord_answers w :)

/-- Settles O10: the instruction is what `decodeWord_answers` says it is. -/
theorem encodingInvertsDecoding : Obligations.EncodingInvertsDecoding :=
  fun _ _ => encode_of_decodeWord

/-! Decoding follows the opcode table (30 R86). -/

open Laws.EncodingRow in
/-- The word of every instruction fits its row, which is one of the 33. -/
theorem encodingRow_statement (i : Instr) : Statement i := by
  cases i
  exacts [cls, ret, jp _, call _, seImm _ _, sneImm _ _, seReg _ _, ldImm _ _, addImm _ _, ldReg _ _, orReg _ _,
    andReg _ _, xorReg _ _, addReg _ _, subReg _ _, shr _, subnReg _ _, shl _, sneReg _ _, ldI _, jpV0 _, rnd _ _,
    drw _ _ _, skp _, sknp _, ldVxDt _, ldVxK _, ldDtVx _, ldStVx _, ldFVx _, ldBVx _, ldMemVx _, ldVxMem _]

theorem row_lt (i : Instr) : i.row < 33 :=
  let ⟨_, hrow, _⟩ := encodingRow_statement i
  hrow

/-- No row fixes a bit that its instruction ignores. -/
theorem fits_clearIgnored (i : Instr) (w : Word) : i.pattern.fits (i.clearIgnored w) = i.pattern.fits w := by
  cases i
  case shr | shl =>
    show (w &&& 0xFF0F#16 &&& 0xF00F#16 == _) = (w &&& 0xF00F#16 == _)
    rw [BitVec.and_assoc]; rfl
  all_goals rfl

/-- A decoded word fits its instruction's row, as the instruction's word does. -/
theorem fits_of_decodeWord {w : Word} {i : Instr} (h : decodeWord w = .instr i) : i.pattern.fits w = true := by
  obtain ⟨-, -, hfits⟩ := encodingRow_statement i
  rwa [encode_of_decodeWord h, fits_clearIgnored] at hfits

/-! The fields of a word that fits a pattern, where the pattern's mask holds the whole field. -/

theorem eq_of_fits {p : Pattern} {w : Word} (hm : p.mask = 0xFFFF#16) (h : p.fits w = true) : w = p.fixed := by
  rw [← eq_of_beq h, hm]
  exact BitVec.and_allOnes.symm

theorem fieldOp_and (w m : Word) : fieldOp (w &&& m) = fieldOp w &&& fieldOp m := BitVec.extractLsb'_and
theorem fieldN_and (w m : Word) : fieldN (w &&& m) = fieldN w &&& fieldN m := BitVec.extractLsb'_and
theorem fieldKk_and (w m : Word) : fieldKk (w &&& m) = fieldKk w &&& fieldKk m := BitVec.extractLsb'_and

theorem fieldOp_of_fits {p : Pattern} {w : Word} (hm : fieldOp p.mask = 0xF#4) (h : p.fits w = true) :
    fieldOp w = fieldOp p.fixed := by
  rw [← eq_of_beq h, fieldOp_and, hm, Laws.EncodingRow.nibble_and]

theorem fieldN_of_fits {p : Pattern} {w : Word} (hm : fieldN p.mask = 0xF#4) (h : p.fits w = true) :
    fieldN w = fieldN p.fixed := by
  rw [← eq_of_beq h, fieldN_and, hm, Laws.EncodingRow.nibble_and]

theorem fieldKk_of_fits {p : Pattern} {w : Word} (hm : fieldKk p.mask = 0xFF#8) (h : p.fits w = true) :
    fieldKk w = fieldKk p.fixed := by
  rw [← eq_of_beq h, fieldKk_and, hm, Laws.EncodingRow.byte_and]

/-- Row k of the opcode table. -/
def tableRow (k : Nat) : Pattern := opcodeTable.getD k ⟨0, 0⟩

/-- Word w decodes to an instruction of row k. -/
def DecodesToRow (w : Word) (k : Nat) : Prop := ∃ i : Instr, decodeWord w = .instr i ∧ i.row = k

/-- Rows 00E0 and 00EE, which fix the whole word. -/
theorem decodesToRow_of_fits_word {w : Word} {k : Nat} (hk : k ∈ [0, 1]) (h : (tableRow k).fits w = true) :
    DecodesToRow w k := by
  fin_cases hk <;> rw [eq_of_fits rfl h] <;> exact ⟨_, rfl, rfl⟩

/-- Rows that fix the family alone. -/
theorem decodesToRow_of_fits_op {w : Word} {k : Nat} (hk : k ∈ [2, 3, 4, 5, 7, 8, 19, 20, 21, 22])
    (h : (tableRow k).fits w = true) : DecodesToRow w k := by
  unfold DecodesToRow decodeWord
  fin_cases hk <;> rw [fieldOp_of_fits rfl h] <;> exact ⟨_, rfl, rfl⟩

/-- Rows that fix the family and the function nibble: 5xy0, 9xy0 and family 8. -/
theorem decodesToRow_of_fits_op_n {w : Word} {k : Nat} (hk : k ∈ [6, 9, 10, 11, 12, 13, 14, 15, 16, 17, 18])
    (h : (tableRow k).fits w = true) : DecodesToRow w k := by
  unfold DecodesToRow decodeWord decodeN0 decodeOp8
  fin_cases hk <;> rw [fieldOp_of_fits rfl h, fieldN_of_fits rfl h] <;> exact ⟨_, rfl, rfl⟩

/-- Rows that fix the family and the function byte: families E and F. -/
theorem decodesToRow_of_fits_op_kk {w : Word} {k : Nat} (hk : k ∈ [23, 24, 25, 26, 27, 28, 29, 30, 31, 32])
    (h : (tableRow k).fits w = true) : DecodesToRow w k := by
  unfold DecodesToRow decodeWord decodeOpE decodeOpF
  fin_cases hk <;> rw [fieldOp_of_fits rfl h, fieldKk_of_fits rfl h] <;> exact ⟨_, rfl, rfl⟩

/-- The 33 rows by what they fix. -/
theorem row_mem_of_lt : ∀ k < 33, k ∈ [0, 1] ∨ k ∈ [2, 3, 4, 5, 7, 8, 19, 20, 21, 22] ∨
    k ∈ [6, 9, 10, 11, 12, 13, 14, 15, 16, 17, 18] ∨ k ∈ [23, 24, 25, 26, 27, 28, 29, 30, 31, 32] := by decide

theorem decodesToRow_of_fits {w : Word} {k : Nat} (hk : k < 33) (h : (tableRow k).fits w = true) :
    DecodesToRow w k := by
  rcases row_mem_of_lt k hk with hk | hk | hk | hk
  · exact decodesToRow_of_fits_word hk h
  · exact decodesToRow_of_fits_op hk h
  · exact decodesToRow_of_fits_op_n hk h
  · exact decodesToRow_of_fits_op_kk hk h

/-- A word decodes to one instruction, so that it fits one row at most. -/
theorem row_unique_of_fits {w : Word} {j k : Nat} (hj : j < 33) (hk : k < 33) (hfj : (tableRow j).fits w = true)
    (hfk : (tableRow k).fits w = true) : j = k := by
  obtain ⟨i, hi, rfl⟩ := decodesToRow_of_fits hj hfj
  obtain ⟨i', hi', rfl⟩ := decodesToRow_of_fits hk hfk
  obtain rfl : i = i' := Decoded.instr.inj (hi.symm.trans hi')
  rfl

/-- An instruction would have a row that the word fits. -/
theorem decodeWord_of_fits_no_row {w : Word} (h : ∀ k < 33, (tableRow k).fits w = false) :
    decodeWord w = .rejected (.unknown w) := by
  cases hd : decodeWord w with
  | instr i =>
    have hfits : i.pattern.fits w = false := h i.row (row_lt i)
    rw [fits_of_decodeWord hd] at hfits
    cases hfits
  | rejected r => rw [eq_unknown_of_decodeWord hd]

/-- Settles O11: `fits_of_decodeWord` is one direction of the table's row, `decodesToRow_of_fits` the other, and the
rest follows from them. -/
theorem decodingFollowsTheOpcodeTable : Obligations.DecodingFollowsTheOpcodeTable := fun _ =>
  ⟨fun i h => ⟨row_lt i, fits_of_decodeWord h⟩, fun _ => decodesToRow_of_fits,
    fun _ _ => row_unique_of_fits, decodeWord_of_fits_no_row⟩

/-- Settles O12, by running the decoder on the fourteen words. -/
theorem specWordsDecodeAsWritten : Obligations.SpecWordsDecodeAsWritten := by
  unfold Obligations.SpecWordsDecodeAsWritten
  decide

end Sys2Proof

namespace Sys2Proof.Machine

/-! A next state from every state of the invariant (60 section 4). -/

/-- An instruction answers a next state while SP is in 0..16; only RET needs that, for the entry it pops (log 13). -/
theorem exists_exec_eq_next (i : Instr) {s : State} (hsp : s.sp.toNat ≤ 16) : ∃ t, exec i s = .next t := by
  cases i
  case ret =>
    simp only [exec, execRet]
    split
    · exact ⟨_, rfl⟩
    · next h0 =>
      have hpos : s.sp.toNat ≠ 0 := fun h => h0 (BitVec.eq_of_toNat_eq h)
      obtain ⟨w, hw⟩ := stackAt_lt s (j := s.sp.toNat - 1) (by omega)
      exact ⟨_, by rw [hw]⟩
  all_goals exact ⟨_, rfl⟩

/-- Settles O6: of the transitions of `step_cases` only an instruction's could stop, and SP is at most 16. -/
theorem everyInvariantStateHasANextState : Obligations.EveryInvariantStateHasANextState := by
  intro s hs
  rcases step_cases s with ⟨-, info, -, h⟩ | ⟨-, w, i, -, -, h⟩ | ⟨-, w, r, -, -, h⟩ | ⟨-, h⟩ | ⟨-, h⟩
  case inr.inl =>
    rw [h]
    exact exists_exec_eq_next i (s := beginStep s) hs.sp
  all_goals exact ⟨_, h⟩

end Sys2Proof.Machine

/-! PROOFS. The statements of the control flow family (spec 40_control_flow.md): PC after a step (O18), the stack's only
users (O20), the jumps (O26), CALL and RET (O27, O28, O30) and the skips (O31, O32). -/

namespace Sys2Proof.Machine

open Sys2Proof.Claims

/-! The step of a Ready state by what it fetches (30 R80, R81). -/

theorem step_of_fetch_word {s : State} {w : Word} (hr : s.run = .ready) (hf : fetch s = .word w) :
    step s = runWord w s := by
  simp only [step, hr, hf]

theorem step_of_decodeWord {s : State} {w : Word} {i : Instr} (hr : s.run = .ready) (hf : fetch s = .word w)
    (hd : decodeWord w = .instr i) : step s = exec i (beginStep s) := by
  rw [step_of_fetch_word hr hf, runWord]
  simp only [hd]

theorem step_of_decodeWord_rejected {s : State} {w : Word} {r : Reject} (hr : s.run = .ready)
    (hf : fetch s = .word w) (hd : decodeWord w = .rejected r) : step s = .next (unknownWord w (beginStep s)) := by
  rw [step_of_fetch_word hr hf, runWord]
  simp only [hd]

/-- A Ready state whose PC + 1 is outside memory faults at the fetch. -/
theorem step_of_memSize_le {s : State} (hr : s.run = .ready) (h : s.params.memSize ≤ s.pc.toNat + 1) :
    ∃ info, step s = .next (fetchFault info s) := by
  rcases fetch_eq s with ⟨hlt, -⟩ | ⟨-, hf⟩
  · omega
  · exact ⟨if s.params.memSize ≤ s.pc.toNat then s.pc.toNat else s.pc.toNat + 1, by simp only [step, hr, hf]⟩

/-! The frame and the record of 60 R235 for the operations of control flow. -/

theorem sameBut_refl (regs : List Nibble) (base len : Nat) (s : State) : SameBut regs base len s s :=
  ⟨fun _ _ => rfl, rfl, rfl, rfl, rfl, rfl, rfl, fun _ _ => rfl, rfl, rfl, rfl, rfl, rfl, rfl, rfl, rfl, rfl, rfl, rfl,
    rfl, rfl⟩

theorem trapped_raise (c : Cause) (i : Instr) {info : Nat} (s : State) (h : info < 2 ^ 17) :
    Trapped c i info s (raise c i info s) where
  run := rfl
  cause := rfl
  addr := rfl
  op := rfl
  info := Nat.mod_eq_of_lt h
  pc := rfl
  ret := rfl
  frame := sameBut_refl _ _ _ _

/-! Jumps (40 R102, R108). -/

theorem toNat_addrOperand (nnn : Addr12) : (addrOperand nnn).toNat = nnn.toNat :=
  BitVec.toNat_setWidth_of_le (by decide)

/-- The sum of Bnnn is exact: it fits in 16 bits. -/
theorem toNat_addrOperand_add_byteOperand (nnn : Addr12) (b : Byte) :
    (addrOperand nnn + byteOperand b).toNat = nnn.toNat + b.toNat := by
  have hb : (byteOperand b).toNat = b.toNat := BitVec.toNat_setWidth_of_le (by decide)
  rw [BitVec.toNat_add, toNat_addrOperand, hb]
  omega

/-- After a jump to where no word lies the next step faults there with code 1. -/
theorem step_jump_of_memSize_le {s : State} {target : Word} (hr : s.run = .ready)
    (h : s.params.memSize ≤ target.toNat + 1) : ∃ u : State, step (jump target s) = .next u ∧ u.run = .faulted ∧
      causeCode u.fault.cause = 1 ∧ u.fault.addr = target := by
  obtain ⟨info, hstep⟩ := step_of_memSize_le (s := jump target s) hr h
  exact ⟨_, hstep, rfl, rfl, rfl⟩

/-- Settles O26: both jumps are `jump` to a target that is exact, and the fetch there is `step_jump_of_memSize_le`. -/
theorem jumpsGoToTheirTargets : Obligations.JumpsGoToTheirTargets := by
  intro s nnn
  have hjp := toNat_addrOperand nnn
  have hjpV0 := toNat_addrOperand_add_byteOperand nnn (getV s 0)
  refine ⟨decodeWord_encode (.jp nnn), decodeWord_encode (.jpV0 nnn), ⟨_, rfl, hjp, sameBut_refl _ _ _ _⟩,
    ⟨_, rfl, hjpV0, sameBut_refl _ _ _ _⟩, fun hr hN => ?_, fun hr hN => ?_⟩
  · obtain ⟨u, hu, hrun, hcause, haddr⟩ := step_jump_of_memSize_le (target := addrOperand nnn) hr (by omega)
    exact ⟨_, u, rfl, hu, hrun, hcause, haddr ▸ hjp⟩
  · obtain ⟨u, hu, hrun, hcause, haddr⟩ :=
      step_jump_of_memSize_le (target := addrOperand nnn + byteOperand (getV s 0)) hr (by omega)
    exact ⟨_, u, rfl, hu, hrun, hcause, haddr ▸ hjpV0⟩

/-! CALL and RET, an equation a case (40 R101, R103). -/

theorem exec_call_of_lt {s : State} (nnn : Addr12) (h : s.sp.toNat < 16) :
    exec (.call nnn) s = .next (jump (addrOperand nnn) (push s.pc s)) := by
  rw [exec, execCall, if_neg (by omega)]

theorem exec_call_of_le {s : State} (nnn : Addr12) (h : 16 ≤ s.sp.toNat) :
    exec (.call nnn) s = .next (raise .stackOverflow (.call nnn) 0 s) := by
  rw [exec, execCall, if_pos h]

theorem exec_ret_of_sp_eq_zero {s : State} (h : s.sp = 0) :
    exec .ret s = .next (raise .stackUnderflow .ret 0 s) := by
  rw [exec, execRet, if_pos h]

theorem exec_ret_of_stackAt {s : State} {target : Word} (h0 : s.sp ≠ 0)
    (h : stackAt s (s.sp.toNat - 1) = some target) :
    exec .ret s = .next (jump target { s with sp := s.sp - 1 }) := by
  rw [exec, execRet, if_neg h0, h]

/-- Two states with the same stack read the same entries. -/
theorem stackAt_congr {s t : State} (h : t.stack = s.stack) (j : Nat) : stackAt t j = stackAt s j := by
  rw [stackAt, stackAt, h]

/-- SP after a push does not wrap. -/
theorem toNat_sp_add_one {s : State} (h : s.sp.toNat < 16) : (s.sp + 1).toNat = s.sp.toNat + 1 := by
  bv_omega

/-- SP after a pop does not wrap. -/
theorem toNat_sp_sub_one {s : State} (h : s.sp ≠ 0) : (s.sp - 1).toNat + 1 = s.sp.toNat := by
  bv_omega

/-- Settles O27: below 16 CALL is a push and a jump, and the push is `stackAt_push`. -/
theorem callPushesAndJumps : Obligations.CallPushesAndJumps := by
  intro s nnn
  refine ⟨decodeWord_encode (.call nnn), fun hsp => ?_, fun hsp => ?_⟩
  · refine ⟨_, exec_call_of_lt nnn hsp, ?_, fun j hj => ?_, toNat_sp_add_one hsp, toNat_addrOperand nnn,
      sameBut_refl _ _ _ _⟩
    · exact (stackAt_push s.pc s _ hsp).trans (if_pos rfl)
    · exact (stackAt_push s.pc s j hsp).trans (if_neg hj)
  · exact ⟨_, exec_call_of_le nnn hsp, trapped_raise _ _ s (by decide)⟩

/-- Settles O28, from the two equations of RET; every entry below 16 exists. -/
theorem retPopsTheReturnAddress : Obligations.RetPopsTheReturnAddress := by
  intro s
  refine ⟨rfl, fun target hpos htop => ?_, fun hle hpos => stackAt_lt s (by omega), fun hzero => ?_⟩
  · have h0 : s.sp ≠ 0 := fun h => by simp [h] at hpos
    have hsp := toNat_sp_sub_one h0
    exact ⟨_, exec_ret_of_stackAt h0 htop, Nat.eq_sub_of_add_eq hsp, rfl, sameBut_refl _ _ _ _⟩
  · exact ⟨_, exec_ret_of_sp_eq_zero (BitVec.eq_of_toNat_eq hzero), trapped_raise _ _ s (by decide)⟩

/-- Settles O30: the CALL pushed a + 2 at the old SP, which is the entry the RET reads and the SP it leaves. -/
theorem retComesBackAfterTheCall : Obligations.RetComesBackAfterTheCall := by
  intro s t u nnn hr hf hsp hstep husp hentry
  have hspb : (beginStep s).sp.toNat < 16 := hsp
  rw [step_of_decodeWord hr hf (decodeWord_encode (.call nnn)), exec_call_of_lt nnn hspb] at hstep
  cases hstep
  have hsucc : u.sp = s.sp + 1 := husp
  have hnat : u.sp.toNat = s.sp.toNat + 1 := hsucc ▸ toNat_sp_add_one hsp
  have htop : stackAt u (u.sp.toNat - 1) = some (s.pc + 2) := by
    rw [hnat, Nat.add_sub_cancel, hentry]
    exact (stackAt_push _ (beginStep s) _ hspb).trans (if_pos rfl)
  have h0 : u.sp ≠ 0 := fun h => by simp [h] at hnat
  refine ⟨_, exec_ret_of_stackAt h0 htop, rfl, ?_⟩
  show u.sp - 1 = s.sp
  rw [hsucc, BitVec.add_sub_cancel]

/-- Settles O20, from the three ways `ExecEffect.stk` gives for SP and the stack after an instruction. -/
theorem onlyCallAndRetUseTheStack : Obligations.OnlyCallAndRetUseTheStack := by
  intro i s t h
  rcases (exec_effect i s t h).stk with ⟨hsp, hst⟩ | ⟨nnn, rfl, hlt, hsp, hst⟩ | ⟨rfl, h0, hsp, hst⟩
  · exact ⟨fun hne => absurd hst hne, fun j _ => stackAt_congr hst j, fun hne => absurd hsp hne⟩
  · have hpush : ∀ j, stackAt t j = stackAt (push s.pc s) j := stackAt_congr hst
    refine ⟨fun _ => ⟨nnn, rfl⟩, fun j hj => ?_, fun _ => .inl ⟨nnn, rfl, hsp ▸ toNat_sp_add_one hlt⟩⟩
    rw [hpush, stackAt_push _ _ _ hlt, if_neg hj]
  · exact ⟨fun hne => absurd hst hne, fun j _ => stackAt_congr hst j,
      fun _ => .inr ⟨rfl, hsp ▸ toNat_sp_sub_one h0⟩⟩

/-! Skips (40 R100, R104 to R107). -/

/-- The skip adds 2 to PC, which wraps (40 R100, decision D3). -/
theorem toNat_pc_skipIf (c : Bool) (s : State) :
    (skipIf c s).pc.toNat = if c then (s.pc.toNat + 2) % 0x10000 else s.pc.toNat := by
  cases c <;> rfl

theorem sameBut_skipIf (c : Bool) (s : State) :
    SameBut [] 0 0 { s with pc := (skipIf c s).pc } (skipIf c s) := by
  cases c <;> exact sameBut_refl _ _ _ _

/-- The skip on equal bytes: both SE. -/
theorem toNat_pc_skipIf_beq (a b : Byte) (s : State) : (skipIf (a == b) s).pc.toNat =
    if a = b then (s.pc.toNat + 2) % 0x10000 else s.pc.toNat :=
  (toNat_pc_skipIf _ s).trans (by simp)

/-- The skip on different bytes: both SNE. -/
theorem toNat_pc_skipIf_bne (a b : Byte) (s : State) : (skipIf (a != b) s).pc.toNat =
    if a = b then s.pc.toNat else (s.pc.toNat + 2) % 0x10000 :=
  (toNat_pc_skipIf _ s).trans (by simp)

/-- Settles O31: both are `skipIf` on the comparison with kk. -/
theorem immediateSkips : Obligations.ImmediateSkips := fun s x kk =>
  ⟨decodeWord_encode (.seImm x kk), decodeWord_encode (.sneImm x kk),
    ⟨_, rfl, toNat_pc_skipIf_beq _ _ s, sameBut_skipIf _ s⟩, ⟨_, rfl, toNat_pc_skipIf_bne _ _ s, sameBut_skipIf _ s⟩⟩

theorem decodeN0_encodeXYN (i : Instr) (op x y n : Nibble) : decodeN0 i (encodeXYN op x y n) =
    if n = 0 then .instr i else .rejected (.unknown (encodeXYN op x y n)) := by
  rw [decodeN0, fieldN_encodeXYN]; rfl

/-- Family 5, any function nibble (30 R86). -/
theorem decodeWord_encodeXYN_5 (x y n : Nibble) :
    decodeWord (encodeXYN 0x5#4 x y n) = decodeN0 (.seReg x y) (encodeXYN 0x5#4 x y n) := by
  simp [decodeWord]

/-- Family 9, any function nibble (30 R86). -/
theorem decodeWord_encodeXYN_9 (x y n : Nibble) :
    decodeWord (encodeXYN 0x9#4 x y n) = decodeN0 (.sneReg x y) (encodeXYN 0x9#4 x y n) := by
  simp [decodeWord]

/-- Settles O32: both are `skipIf` on the comparison of the registers, and `decodeN0` refuses n other than 0. -/
theorem registerSkips : Obligations.RegisterSkips := fun s x y n =>
  ⟨(decodeWord_encodeXYN_5 x y n).trans (decodeN0_encodeXYN _ _ _ _ _),
    (decodeWord_encodeXYN_9 x y n).trans (decodeN0_encodeXYN _ _ _ _ _),
    ⟨_, rfl, toNat_pc_skipIf_beq _ _ s, sameBut_skipIf _ s⟩, ⟨_, rfl, toNat_pc_skipIf_bne _ _ s, sameBut_skipIf _ s⟩⟩

/-! PC under the operations that do not jump (10 R25). -/

/-- A failed sink changes nothing but the frame and the ports, whatever frame it starts from. -/
theorem exists_sinkFailed_eq (s : State) : ∃ fb ports, sinkFailed s = { s with fb := fb, ports := ports } := by
  unfold sinkFailed
  split
  · exact ⟨_, _, rfl⟩
  · exact ⟨s.fb, s.ports, rfl⟩

/-- Clearing changes nothing but the frame and the ports, whatever frame it starts from (44 R203). -/
theorem exists_sinkClear_eq (s : State) : ∃ fb ports, (sinkClear s).2 = { s with fb := fb, ports := ports } := by
  obtain ⟨a, ports, he⟩ := takeSink_eq s
  rw [sinkClear, he]
  cases a with
  | backendError => exact exists_sinkFailed_eq { s with ports := ports }
  | done c => cases hk : s.params.sink <;> simp only [hk] <;> exact ⟨_, ports, rfl⟩

/-- Drawing changes nothing but the frame and the ports, whatever frame it starts from (44 R202). -/
theorem exists_sinkDraw_eq (x y : Nat) (rows : List Byte) (s : State) :
    ∃ fb ports, (sinkDraw x y rows s).2 = { s with fb := fb, ports := ports } := by
  obtain ⟨a, ports, he⟩ := takeSink_eq s
  rw [sinkDraw, he]
  cases a with
  | backendError => exact exists_sinkFailed_eq { s with ports := ports }
  | done c => cases hk : s.params.sink <;> simp only [hk] <;> exact ⟨_, ports, rfl⟩

theorem sinkClear_pc {s u : State} {ok : Bool} (h : sinkClear s = (ok, u)) : u.pc = s.pc := by
  obtain ⟨fb, ports, he⟩ := exists_sinkClear_eq s
  rw [h] at he
  exact (congrArg State.pc he :)

theorem sinkDraw_pc {x y : Nat} {rows : List Byte} {s u : State} {hit : Option Bool}
    (h : sinkDraw x y rows s = (hit, u)) : u.pc = s.pc := by
  obtain ⟨fb, ports, he⟩ := exists_sinkDraw_eq x y rows s
  rw [h] at he
  exact (congrArg State.pc he :)

theorem skipIf_pc_eq_or (c : Bool) (s : State) : (skipIf c s).pc = s.pc ∨ (skipIf c s).pc = s.pc + 2 := by
  cases c
  · exact .inl rfl
  · exact .inr rfl

/-- A key skip that does not fault skips or does not (44 R204, R205). -/
theorem keySkip_pc_eq_or {i : Instr} {key : Byte} {want : Bool} {s : State}
    (h : (keySkip i key want s).run ≠ .faulted) :
    (keySkip i key want s).pc = s.pc ∨ (keySkip i key want s).pc = s.pc + 2 := by
  obtain ⟨a, ports, he⟩ := takeKeyDown_eq s
  unfold keySkip at h ⊢
  rw [he] at h ⊢
  split at h
  · exact absurd rfl h
  · next hk =>
    rw [if_neg hk]
    cases a with
    | held down => exact skipIf_pc_eq_or _ { s with ports := ports }
    | backendError => exact absurd rfl h

/-- One look at an open wait leaves PC unless it faults (44 R206). -/
theorem waitOnce_pc {s : State} (h : (waitOnce s).run ≠ .faulted) : (waitOnce s).pc = s.pc := by
  obtain ⟨a, ports, he⟩ := takeKeyWait_eq s
  rw [waitOnce, he] at h ⊢
  cases a with
  | noKeyYet | pressed k => rfl
  | backendError => exact absurd rfl h

/-- An Unknown word that does not fault leaves PC advanced (60 R233). -/
theorem unknownWord_pc {w : Word} {s : State} (h : (unknownWord w s).run ≠ .faulted) : (unknownWord w s).pc = s.pc := by
  rcases unknownWord_cases w s with ⟨-, he⟩ | ⟨-, he⟩ | ⟨-, he⟩ <;> rw [he] at h ⊢
  exact absurd rfl h

/-! PC after an instruction that does not fault (10 R25), for the advanced PC the instruction finds. -/

theorem exec_call_pc {nnn : Addr12} {s t : State} (h : exec (.call nnn) s = .next t) (hrun : t.run ≠ .faulted) :
    t.pc = addrOperand nnn := by
  rcases Nat.lt_or_ge s.sp.toNat 16 with hsp | hsp
  · rw [exec_call_of_lt nnn hsp] at h
    cases h; rfl
  · rw [exec_call_of_le nnn hsp] at h
    cases h; exact absurd rfl hrun

theorem exec_ret_pc {s t : State} (h : exec .ret s = .next t) (hrun : t.run ≠ .faulted) :
    stackAt s (s.sp.toNat - 1) = some t.pc := by
  simp only [exec, execRet] at h
  split at h
  · cases h; exact absurd rfl hrun
  · split at h <;> cases h
    assumption

/-- An instruction that sets PC to no target leaves PC advanced or, if it is a skip, adds 2 to it. -/
theorem exec_pc_of_not_jump {i : Instr} {s t : State} (h : exec i s = .next t) (hrun : t.run ≠ .faulted)
    (hjp : ∀ nnn, i ≠ .jp nnn) (hcall : ∀ nnn, i ≠ .call nnn) (hjpV0 : ∀ nnn, i ≠ .jpV0 nnn) (hret : i ≠ .ret) :
    t.pc = s.pc ∨ (isSkip i = true ∧ t.pc = s.pc + 2) := by
  cases i
  case jp nnn => exact absurd rfl (hjp nnn)
  case call nnn => exact absurd rfl (hcall nnn)
  case jpV0 nnn => exact absurd rfl (hjpV0 nnn)
  case ret => exact absurd rfl hret
  case seImm | sneImm | seReg | sneReg => cases h; exact (skipIf_pc_eq_or _ s).imp_right fun h => ⟨rfl, h⟩
  case skp | sknp => cases h; exact (keySkip_pc_eq_or hrun).imp_right fun h => ⟨rfl, h⟩
  case ldVxK x => cases h; exact .inl (waitOnce_pc hrun)
  case cls =>
    simp only [exec, execCls] at h
    split at h <;> cases h
    · next hc => exact .inl (sinkClear_pc hc)
    · exact absurd rfl hrun
  case drw x y n =>
    simp only [exec, execDrw] at h
    split at h
    · cases h; exact absurd rfl hrun
    · split at h <;> cases h
      · next hc => exact .inl ((setV_pc _ _ _).trans (sinkDraw_pc hc))
      · exact absurd rfl hrun
  case rnd x kk => cases h; rw [takeRandom_snd]; exact .inl rfl
  case ldBVx | ldMemVx =>
    simp only [exec, execLdBVx, execLdMemVx] at h
    split at h <;> cases h
    · exact absurd rfl hrun
    · exact .inl rfl
  case ldVxMem x =>
    simp only [exec, execLdVxMem] at h
    split at h <;> cases h
    · exact absurd rfl hrun
    · obtain ⟨v, hv⟩ := setVs_eq s 0 (loadBytes s (baseAddr s) (regCount x))
      exact .inl (congrArg State.pc hv :)
  all_goals cases h; exact .inl rfl

/-- Settles O18: the step is the instruction at the advanced PC, one lemma above for each of the statement's cases. -/
theorem pcAfterAStep : Obligations.PcAfterAStep := by
  intro s t w hr hf hstep hrun
  have hexec {i : Instr} (hd : decodeWord w = .instr i) : exec i (beginStep s) = .next t :=
    (step_of_decodeWord hr hf hd).symm.trans hstep
  split
  · next nnn hd =>
    cases hexec hd
    exact toNat_addrOperand nnn
  · next nnn hd =>
    rw [exec_call_pc (hexec hd) hrun]
    exact toNat_addrOperand nnn
  · next nnn hd =>
    cases hexec hd
    exact toNat_addrOperand_add_byteOperand nnn (getV s 0)
  · next hd => exact exec_ret_pc (s := beginStep s) (hexec hd) hrun
  · next i hjp hcall hjpV0 hret hd =>
    refine (exec_pc_of_not_jump (hexec hd) hrun hjp hcall hjpV0 hret).imp_right fun ⟨hskip, hpc⟩ => ⟨hskip, ?_⟩
    rw [hpc, beginStep_pc, BitVec.add_assoc]
    rfl
  · next r hd =>
    cases (step_of_decodeWord_rejected hr hf hd).symm.trans hstep
    exact unknownWord_pc hrun

end Sys2Proof.Machine

/-! PROOFS. The statements of the ALU's family (spec 41_alu.md): immediates (O33), moves and logic (O34), addition
(O35), the two subtractions (O36) and the two shifts (O37). -/

namespace Sys2Proof.Machine

open Sys2Proof.Claims

/-! What the two writes of the ALU leave in V[x] and VF, and their frames (41 R145). -/

theorem getV_setV_self (x : Nibble) (b : Byte) (s : State) : getV (setV x b s) x = b :=
  (getV_setV x x b s).trans (if_pos rfl)

theorem sameBut_setV (x : Nibble) (b : Byte) (s : State) : SameBut [x] 0 0 s (setV x b s) :=
  { sameBut_refl [x] 0 0 s with v := fun _ hr => getV_setV_of_ne (mt List.mem_singleton.2 hr) b s }

/-- The result is written last, so that it stays for x = F too. -/
theorem getV_writeFlagged_self (x : Nibble) (f : Bool) (b : Byte) (s : State) :
    getV (writeFlagged x f b s) x = b :=
  getV_setV_self x b _

theorem getV_writeFlagged_regF {x : Nibble} (h : x ≠ 0xF) (f : Bool) (b : Byte) (s : State) :
    getV (writeFlagged x f b s) 0xF = flagByte f :=
  (getV_writeFlagged x 0xF f b s).trans ((if_neg h.symm).trans (if_pos rfl))

theorem sameBut_writeFlagged (x : Nibble) (f : Bool) (b : Byte) (s : State) :
    SameBut [x, 0xF] 0 0 s (writeFlagged x f b s) :=
  { sameBut_refl [x, 0xF] 0 0 s with v := fun _ hr => getV_writeFlagged_of_not_mem hr f b s }

/-! The integer laws of the ALU (41 R137). -/

/-- A flag that is a comparison is 1 exactly when the comparison holds: `carryFlag` and `greaterFlag`. -/
theorem flagByte_decide (p : Prop) [Decidable p] : flagByte (decide p) = if p then 1 else 0 := by
  by_cases h : p <;> simp [flagByte, h]

theorem toNat_flagByte (f : Bool) : (flagByte f).toNat = f.toNat := by
  cases f <;> rfl

/-- Subtraction adds 256 before it subtracts, so that nothing is cut off at 0. -/
theorem toNat_byte_sub (a b : Byte) : (a - b).toNat = (a.toNat + 256 - b.toNat) % 256 := by
  have := b.isLt
  rw [BitVec.toNat_sub]; omega

theorem toNat_byte_shiftRight_one (a : Byte) : (a >>> 1).toNat = a.toNat / 2 := by
  rw [BitVec.toNat_ushiftRight, Nat.shiftRight_eq_div_pow]

theorem toNat_byte_shiftLeft_one (a : Byte) : (a <<< 1).toNat = a.toNat * 2 % 256 := by
  rw [BitVec.toNat_shiftLeft, Nat.shiftLeft_eq]

/-- Bit 0 is what the right shift drops. -/
theorem toNat_lowBitFlag (a : Byte) : (lowBitFlag a).toNat = a.toNat % 2 := by
  rw [lowBitFlag, BitVec.getLsbD, Nat.toNat_testBit, Nat.pow_zero, Nat.div_one]

/-- Bit 7 is what the left shift drops, and above it a byte has no bit. -/
theorem toNat_highBitFlag (a : Byte) : (highBitFlag a).toNat = a.toNat / 128 := by
  have := a.isLt
  rw [highBitFlag, BitVec.getLsbD, Nat.toNat_testBit]; omega

/-! Moves and logic. -/

/-- Settles O33: both are one `setV`, of kk and of the sum. -/
theorem immediateLoadAndAdd : Obligations.ImmediateLoadAndAdd := by
  intro s x kk
  refine ⟨decodeWord_encode (.ldImm x kk), decodeWord_encode (.addImm x kk), ⟨_, rfl, ?_, sameBut_setV _ _ s⟩,
    ⟨_, rfl, ?_, sameBut_setV _ _ s⟩⟩
  · exact getV_setV_self _ _ _
  · rw [getV_setV_self, BitVec.toNat_add]

/-- Settles O34: all four are one `setV`, of a value that is computed bit by bit. -/
theorem movesAndLogic : Obligations.MovesAndLogic := by
  intro s x y
  refine ⟨decodeWord_encode (.ldReg x y), decodeWord_encode (.orReg x y), decodeWord_encode (.andReg x y),
    decodeWord_encode (.xorReg x y), ⟨_, rfl, ?_, sameBut_setV _ _ s⟩, ⟨_, rfl, sameBut_setV _ _ s, fun b => ?_⟩,
    ⟨_, rfl, sameBut_setV _ _ s, fun b => ?_⟩, ⟨_, rfl, sameBut_setV _ _ s, fun b => ?_⟩⟩
  · exact getV_setV_self _ _ _
  · rw [getV_setV_self, BitVec.getLsbD_or]
  · rw [getV_setV_self, BitVec.getLsbD_and]
  · rw [getV_setV_self, BitVec.getLsbD_xor]

/-! Arithmetic and shifts, which write a flag. -/

/-- Settles O35: the flagged write of the sum, its flag `carryFlag`. -/
theorem addWritesCarryThenSum : Obligations.AddWritesCarryThenSum := by
  intro s x y
  refine ⟨decodeWord_encode (.addReg x y), _, rfl, ?_, fun hx => ?_, sameBut_writeFlagged _ _ _ s⟩
  · rw [getV_writeFlagged_self, BitVec.toNat_add]
  · rw [getV_writeFlagged_regF hx, carryFlag, flagByte_decide]

/-- The flagged write of a - b, its flag `greaterFlag` (41 R139 with a = Vx, R141 with a = Vy). -/
theorem writeFlagged_greaterFlag_sub (x : Nibble) (a b : Byte) (s : State) :
    (getV (writeFlagged x (greaterFlag a b) (a - b) s) x).toNat = (a.toNat + 256 - b.toNat) % 256 ∧
      (x ≠ 0xF → getV (writeFlagged x (greaterFlag a b) (a - b) s) 0xF = if b.toNat < a.toNat then 1 else 0) ∧
      SameBut [x, 0xF] 0 0 s (writeFlagged x (greaterFlag a b) (a - b) s) := by
  refine ⟨?_, fun hx => ?_, sameBut_writeFlagged _ _ _ s⟩
  · rw [getV_writeFlagged_self, toNat_byte_sub]
  · rw [getV_writeFlagged_regF hx, greaterFlag, flagByte_decide]

/-- Settles O36: both are `writeFlagged_greaterFlag_sub`, on the old values of the two registers in either order. -/
theorem subtractionsWriteStrictFlag : Obligations.SubtractionsWriteStrictFlag := fun s x y =>
  ⟨decodeWord_encode (.subReg x y), decodeWord_encode (.subnReg x y),
    ⟨_, rfl, writeFlagged_greaterFlag_sub x (getV s x) (getV s y) s⟩,
    ⟨_, rfl, writeFlagged_greaterFlag_sub x (getV s y) (getV s x) s⟩⟩

/-- Family 8, any y and function nibble (30 R86). -/
theorem decodeWord_encodeXYN_8 (x y n : Nibble) :
    decodeWord (encodeXYN 0x8#4 x y n) = decodeOp8 (encodeXYN 0x8#4 x y n) := by
  simp [decodeWord]

/-- The shift right ignores y (30 R87). -/
theorem decodeWord_shr (x y : Nibble) : decodeWord (encodeXYN 0x8#4 x y 0x6#4) = .instr (.shr x) :=
  (decodeWord_encodeXYN_8 x y _).trans (by simp [decodeOp8])

/-- The shift left ignores y (30 R87). -/
theorem decodeWord_shl (x y : Nibble) : decodeWord (encodeXYN 0x8#4 x y 0xE#4) = .instr (.shl x) :=
  (decodeWord_encodeXYN_8 x y _).trans (by simp [decodeOp8])

/-- Settles O37: the flagged write of the shifted value, its flag the bit that the shift drops. -/
theorem shiftsWriteTheBitShiftedOut : Obligations.ShiftsWriteTheBitShiftedOut := by
  intro s x y
  refine ⟨decodeWord_shr x y, decodeWord_shl x y, ⟨_, rfl, ?_, fun hx => ?_, sameBut_writeFlagged _ _ _ s⟩,
    ⟨_, rfl, ?_, fun hx => ?_, sameBut_writeFlagged _ _ _ s⟩⟩
  · rw [getV_writeFlagged_self, toNat_byte_shiftRight_one]
  · rw [getV_writeFlagged_regF hx, toNat_flagByte, toNat_lowBitFlag]
  · rw [getV_writeFlagged_self, toNat_byte_shiftLeft_one]
  · rw [getV_writeFlagged_regF hx, toNat_flagByte, toNat_highBitFlag]

end Sys2Proof.Machine

/-! PROOFS. The statement of the index and memory family (spec 42_index_memory.md): who writes I, and what (O21). -/

namespace Sys2Proof.Machine

/-- An address operand has 12 bits (42 R160). -/
theorem toNat_addrOperand_le (nnn : Addr12) : (addrOperand nnn).toNat ≤ 0xFFF := by
  have hlt := nnn.isLt
  rw [toNat_addrOperand]
  omega

/-- The glyph address is bounded for every Vx, unchecked as it is (42 R161, decision D15): at most 5 * 255. -/
theorem toNat_glyphAddr_le (b : Byte) : (glyphAddr b).toNat ≤ 0xFFF := by
  have hlt := b.isLt
  rw [toNat_glyphAddr]
  omega

/-- Settles O21, from the three ways `ExecEffect.ix` gives for I after an instruction. -/
theorem onlyTwoInstructionsWriteI : Obligations.OnlyTwoInstructionsWriteI := by
  intro i s t h hne
  rcases (exec_effect i s t h).ix with hi | ⟨nnn, rfl, hi⟩ | ⟨x, rfl, hi⟩
  · exact absurd hi hne
  · exact ⟨.inl ⟨nnn, rfl⟩, hi ▸ toNat_addrOperand_le nnn⟩
  · exact ⟨.inr ⟨x, rfl⟩, hi ▸ toNat_glyphAddr_le (getV s x)⟩

end Sys2Proof.Machine

/-! PROOFS. The statement of the timers' family (spec 43_timers.md): the tick (O49). -/

namespace Sys2Proof.Machine

open Sys2Proof.Claims

/-- The frame of a tick: the state with its two timers replaced is the whole of what it answers (43 R185). -/
theorem sameBut_tick (s : State) :
    SameBut [] 0 0 { s with dt := (tick s).dt, st := (tick s).st } (tick s) :=
  sameBut_refl [] 0 0 (tick s)

/-- Settles O49: the driver's tick answers `tick s`, and `toNat_decrement` reads each timer after it. -/
theorem tickDecrementsBothTimers : Obligations.TickDecrementsBothTimers := fun s =>
  ⟨tick s, rfl, toNat_decrement s.dt, toNat_decrement s.st, sameBut_tick s⟩

end Sys2Proof.Machine

/-! PROOFS. The statement of the ports' family (spec 44_io.md): where a port's answer reaches (O25). -/

namespace Sys2Proof.Machine

open Sys2Proof.Claims

/-! What an instruction that calls a port may move when it does not fault (44 R208). -/

/-- CLS moves the frame (44 R203). -/
theorem exists_exec_cls_eq {s t : State} (h : exec .cls s = .next t) (hrun : t.run ≠ .faulted) :
    ∃ fb ports, t = { s with fb := fb, ports := ports } := by
  obtain ⟨fb, ports, he⟩ := exists_sinkClear_eq s
  simp only [exec, execCls] at h
  split at h <;> cases h
  · next hc => exact ⟨fb, ports, by rw [← he, hc]⟩
  · exact absurd rfl hrun

/-- DRW moves the frame and VF (44 R202). -/
theorem exists_exec_drw_eq {x y n : Nibble} {s t : State} (h : exec (.drw x y n) s = .next t)
    (hrun : t.run ≠ .faulted) : ∃ v fb ports, t = { s with v := v, fb := fb, ports := ports } := by
  obtain ⟨fb, ports, he⟩ :=
    exists_sinkDraw_eq (getV s x).toNat (getV s y).toNat (loadBytes s (baseAddr s) n.toNat) s
  simp only [exec, execDrw] at h
  split at h
  · cases h; exact absurd rfl hrun
  · split at h <;> cases h
    · next hc =>
      rw [hc] at he
      exact ⟨_, fb, ports, congrArg (setV regF _) he⟩
    · exact absurd rfl hrun

/-- RND moves the register it writes (41 R143). -/
theorem exists_exec_rnd_eq {x : Nibble} {kk : Byte} {s t : State} (h : exec (.rnd x kk) s = .next t) :
    ∃ v ports, t = { s with v := v, ports := ports } := by
  cases h
  rw [takeRandom_snd]
  exact ⟨_, _, rfl⟩

theorem exists_skipIf_eq (c : Bool) (s : State) : ∃ pc, skipIf c s = { s with pc := pc } := by
  cases c
  · exact ⟨s.pc, rfl⟩
  · exact ⟨s.pc + 2, rfl⟩

/-- A key skip moves PC (44 R204, R205). -/
theorem exists_keySkip_eq {i : Instr} {key : Byte} {want : Bool} {s : State}
    (hrun : (keySkip i key want s).run ≠ .faulted) :
    ∃ pc ports, keySkip i key want s = { s with pc := pc, ports := ports } := by
  obtain ⟨a, ports, he⟩ := takeKeyDown_eq s
  unfold keySkip at hrun ⊢
  rw [he] at hrun ⊢
  split at hrun
  · exact absurd rfl hrun
  · next hk =>
    rw [if_neg hk]
    cases a with
    | held down =>
      obtain ⟨pc, hpc⟩ := exists_skipIf_eq (down == want) { s with ports := ports }
      exact ⟨pc, ports, hpc⟩
    | backendError => exact absurd rfl hrun

/-- One look at an open wait moves V[WAIT_X], RUN and the returned value (44 R206). -/
theorem exists_waitOnce_eq {s : State} (hrun : (waitOnce s).run ≠ .faulted) :
    ∃ v run ports ret, waitOnce s = { s with v := v, run := run, ports := ports, ret := ret } := by
  obtain ⟨a, ports, he⟩ := takeKeyWait_eq s
  rw [waitOnce, he] at hrun ⊢
  cases a with
  | noKeyYet => exact ⟨s.v, s.run, ports, s.ret, rfl⟩
  | pressed k => exact ⟨_, .ready, ports, .ok, rfl⟩
  | backendError => exact absurd rfl hrun

/-! An instruction that calls no port does the same whatever the ports hold (44 R208). -/

theorem skipIf_withPorts (c : Bool) (s : State) (p : Ports) :
    skipIf c { s with ports := p } = { skipIf c s with ports := p } := by
  cases c <;> rfl

theorem setVs_withPorts (s : State) (p : Ports) (k : Nat) (bs : List Byte) :
    setVs { s with ports := p } k bs = { setVs s k bs with ports := p } := by
  induction bs generalizing s k with
  | nil => rfl
  | cons b rest ih => exact ih (setV (BitVec.ofNat 4 k) b s) (k + 1)

/-- The two runs of such an instruction end in the same state but for the ports (44 R208). -/
theorem exec_withPorts {i : Instr} {s t : State} (hi : callsPort i = false) (h : exec i s = .next t) (p : Ports) :
    exec i { s with ports := p } = .next { t with ports := p } := by
  cases i
  case cls | drw | skp | sknp | ldVxK | rnd => cases hi
  case seImm | sneImm | seReg | sneReg => cases h; exact congrArg _ (skipIf_withPorts _ s p)
  case ret =>
    simp only [exec, execRet] at h
    split at h
    · next h0 => cases h; exact exec_ret_of_sp_eq_zero (s := { s with ports := p }) h0
    · next h0 =>
      split at h <;> cases h
      next hw => exact exec_ret_of_stackAt (s := { s with ports := p }) h0 hw
  case call nnn =>
    rcases Nat.lt_or_ge s.sp.toNat 16 with hsp | hsp
    · rw [exec_call_of_lt nnn hsp] at h
      cases h; exact exec_call_of_lt (s := { s with ports := p }) nnn hsp
    · rw [exec_call_of_le nnn hsp] at h
      cases h; exact exec_call_of_le (s := { s with ports := p }) nnn hsp
  case ldBVx | ldMemVx =>
    simp only [exec, execLdBVx, execLdMemVx, baseAddr] at h ⊢
    split at h <;> cases h <;> rfl
  case ldVxMem x =>
    simp only [exec, execLdVxMem, baseAddr] at h ⊢
    split at h <;> cases h
    · rfl
    · exact congrArg _ (setVs_withPorts s p 0 _)
  all_goals cases h; rfl

/-! Two runs of one instruction (44 R208). -/

/-- t and u, both after instruction i, differ at most in the general registers, the ports and what i writes from a
port's answer (44 R208). -/
structure AgreeButAnswers (i : Instr) (t u : State) : Prop where
  fields : ∃ v pc run fb ports ret,
    u = { t with v := v, pc := pc, run := run, fb := fb, ports := ports, ret := ret }
  pc : (∀ x, i ≠ .skp x ∧ i ≠ .sknp x) → u.pc = t.pc
  run : (∀ x, i ≠ .ldVxK x) → u.run = t.run ∧ u.ret = t.ret
  fb : (∀ x y n, i ≠ .drw x y n) → i ≠ .cls → u.fb = t.fb

/-- One case a caller of a port; the others end in the same state but for the ports. -/
theorem agreeButAnswers_of_exec {i : Instr} {s t u : State} {p : Ports} (ht : exec i s = .next t)
    (hu : exec i { s with ports := p } = .next u) (htr : t.run ≠ .faulted) (hur : u.run ≠ .faulted) :
    AgreeButAnswers i t u := by
  cases i
  case cls =>
    obtain ⟨_, _, rfl⟩ := exists_exec_cls_eq ht htr
    obtain ⟨_, _, rfl⟩ := exists_exec_cls_eq hu hur
    exact ⟨⟨_, _, _, _, _, _, rfl⟩, fun _ => rfl, fun _ => ⟨rfl, rfl⟩, fun _ hne => absurd rfl hne⟩
  case drw x y n =>
    obtain ⟨_, _, _, rfl⟩ := exists_exec_drw_eq ht htr
    obtain ⟨_, _, _, rfl⟩ := exists_exec_drw_eq hu hur
    exact ⟨⟨_, _, _, _, _, _, rfl⟩, fun _ => rfl, fun _ => ⟨rfl, rfl⟩, fun hne => absurd rfl (hne x y n)⟩
  case rnd =>
    obtain ⟨_, _, rfl⟩ := exists_exec_rnd_eq ht
    obtain ⟨_, _, rfl⟩ := exists_exec_rnd_eq hu
    exact ⟨⟨_, _, _, _, _, _, rfl⟩, fun _ => rfl, fun _ => ⟨rfl, rfl⟩, fun _ _ => rfl⟩
  case skp x | sknp x =>
    cases ht
    cases hu
    obtain ⟨_, _, het⟩ := exists_keySkip_eq htr
    obtain ⟨_, _, heu⟩ := exists_keySkip_eq hur
    rw [het, heu]
    exact ⟨⟨_, _, _, _, _, _, rfl⟩, fun hne => absurd (hne x) (by simp), fun _ => ⟨rfl, rfl⟩, fun _ _ => rfl⟩
  case ldVxK x =>
    cases ht
    cases hu
    obtain ⟨_, _, _, _, het⟩ := exists_waitOnce_eq htr
    obtain ⟨_, _, _, _, heu⟩ := exists_waitOnce_eq hur
    rw [het, heu]
    exact ⟨⟨_, _, _, _, _, _, rfl⟩, fun _ => rfl, fun hne => absurd rfl (hne x), fun _ _ => rfl⟩
  all_goals
    cases (exec_withPorts rfl ht p).symm.trans hu
    exact ⟨⟨_, _, _, _, _, _, rfl⟩, fun _ => rfl, fun _ => ⟨rfl, rfl⟩, fun _ _ => rfl⟩

/-- Settles O25: the fields are `agreeButAnswers_of_exec`, the registers neither run writes are those of s, and an
instruction that calls no port is `exec_withPorts`. -/
theorem portAnswersReachOnlyTheirInstruction : Obligations.PortAnswersReachOnlyTheirInstruction := by
  intro i s t u p ht hu htr hur
  have hregs : ∀ r : Nibble, r ∉ writes i → getV u r = getV t r := fun r hr =>
    (getV_exec_of_not_mem_writes hu hr).trans (getV_exec_of_not_mem_writes ht hr).symm
  have hsame (hi : callsPort i = false) : u = { t with ports := p } := by
    cases (exec_withPorts hi ht p).symm.trans hu
    rfl
  obtain ⟨⟨_, _, _, _, _, _, rfl⟩, hpc, hrun, hfb⟩ := agreeButAnswers_of_exec ht hu htr hur
  exact ⟨hregs, rfl, rfl, rfl, rfl, rfl, rfl, rfl, rfl, rfl, rfl, rfl, rfl, rfl, rfl, rfl, hpc, hrun, hfb, hsame⟩

end Sys2Proof.Machine

/-! PROOFS. Reset and the invariant (spec 10_state.md sections 3 to 9): what a construction leaves (O1, O2), a reset of
a running core (O8), and the invariant after a construction (O3), a step (O4) and a run of the driver's calls (O5). -/

namespace Sys2Proof.Machine

open Sys2Proof.Claims

/-! What a construction leaves (10 R40). -/

theorem getV_construct (p : Params) (x : Nibble) : getV (State.construct p) x = 0 :=
  Vector.getElem_replicate x.isLt

theorem stackAt_construct_of_lt (p : Params) {j : Nat} (h : j < 16) : stackAt (State.construct p) j = some 0 := by
  rw [stackAt, Vector.getElem?_eq_getElem h]
  exact congrArg some (Vector.getElem_replicate h)

/-- Above the font a construction leaves MEM_INIT (10 R40). -/
theorem readByte_construct_of_le (p : Params) {a : Nat} (h : 80 ≤ a) :
    readByte (State.construct p) a = cellAt p.memInit a 0 :=
  (Memory.read_nil p a).trans (dif_neg (by omega))

/-- Settles O1: the registers, the stack and memory are the lemmas above, every other field is a constant. -/
theorem resetLeavesTheSpecValues : Obligations.ResetLeavesTheSpecValues := fun p =>
  ⟨getV_construct p, rfl, rfl, rfl, fun _ => stackAt_construct_of_lt p, rfl, rfl, fun _ => readByte_construct_of_lt p,
    fun _ h _ => readByte_construct_of_le p h, rfl, rfl, rfl, rfl, rfl, rfl, rfl, rfl, rfl, rfl, fun _ => rfl⟩

/-- Settles O2: the default MEM_INIT lists no byte, so that each above the font is 0. -/
theorem defaultResetStartsAt0x200 : Obligations.DefaultResetStartsAt0x200 :=
  ⟨rfl, rfl, fun _ h _ => readByte_construct_of_le Params.default h⟩

/-- Settles O8: a reset reads nothing of the state but its parameters and ports. -/
theorem resetForgetsEverything : Obligations.ResetForgetsEverything := by
  intro s
  refine ⟨resetNow s, rfl, rfl, sameBut_refl _ _ _ _, fun s' hparams hports => ?_⟩
  show Host.Outcome.next (resetNow s') = .next (resetNow s)
  rw [resetNow, resetNow, hparams, hports]

/-! The invariant under each operation. -/

theorem inv_construct {p : Params} (h : p.wellFormed = true) : Inv (State.construct p) where
  params := h
  mem := rfl
  memBound := rfl
  sp := Nat.zero_le _
  i := Nat.zero_le _
  fb := rfl
  wait := nofun
  openCall := ⟨nofun, nofun⟩
  cause := ⟨nofun, fun hne => absurd rfl hne⟩
  faulted := nofun
  unk := fun _ => ⟨rfl, rfl⟩

/-- Settles O3: `inv_construct`, the default parameters being well formed. -/
theorem invariantHoldsAfterConstruction : Obligations.InvariantHoldsAfterConstruction :=
  ⟨inv_construct (by decide), fun _ => inv_construct⟩

theorem inv_resetNow {s : State} (h : Inv s) : Inv (resetNow s) :=
  { inv_construct h.params with }

/-- Outside Faulted no cause is recorded (10 R33). -/
theorem Inv.cause_eq_none {s : State} (h : Inv s) (hr : s.run ≠ .faulted) : s.fault.cause = none := by
  by_contra hne
  exact hr (h.cause.2 hne)

theorem inv_beginStep {s : State} (h : Inv s) (hr : s.run = .ready) : Inv (beginStep s) :=
  { h with
    wait := fun hw => nomatch hr.symm.trans hw
    openCall := ⟨fun hw => (nomatch hr.symm.trans hw), nofun⟩
    faulted := fun hf => nomatch hr.symm.trans hf }

/-- Fault entry writes PC, RUN, the record and the returned value alike, whatever the cause (60 R235). -/
theorem inv_enterFault {s : State} (h : Inv s) (c : Cause) (a : Word) (op : Option Word) (info : Nat) :
    Inv (enterFault c a op info s) :=
  { h with
    wait := nofun
    openCall := ⟨nofun, nofun⟩
    cause := ⟨fun _ => nofun, fun _ => rfl⟩
    faulted := fun _ => ⟨rfl, rfl⟩ }

theorem inv_repeatFault {s : State} (h : Inv s) (hr : s.run = .faulted) : Inv (repeatFault s) :=
  { h with
    openCall := ⟨fun hw => (nomatch hr.symm.trans hw), nofun⟩
    faulted := fun hf => ⟨(h.faulted hf).1, rfl⟩ }

/-- An Unknown word, in the state whose PC is advanced (60 R233): only the first report is recorded. -/
theorem inv_unknownWord {s : State} (h : Inv s) (hr : s.run = .ready) (w : Word) : Inv (unknownWord w s) := by
  rcases unknownWord_cases w s with ⟨-, he⟩ | ⟨-, he⟩ | ⟨-, he⟩ <;> rw [he]
  · exact { h with
      openCall := ⟨fun hw => (nomatch hr.symm.trans hw), nofun⟩
      faulted := fun hf => nomatch hr.symm.trans hf
      unk := nofun }
  · exact h
  · exact inv_enterFault h _ _ _ _

/-- One look at an open wait (44 R206): a key closes the call with RUN, a failure is a fault. -/
theorem inv_waitOnce {s : State} (h : Inv s) (hr : s.run = .waitKey) : Inv (waitOnce s) := by
  obtain ⟨a, ports, he⟩ := takeKeyWait_eq s
  rw [waitOnce, he]
  cases a with
  | noKeyYet => exact { h with }
  | pressed k =>
    have hnone : s.fault.cause = none := h.cause_eq_none (by simp [hr])
    exact { h with
      wait := nofun
      openCall := ⟨nofun, nofun⟩
      cause := ⟨nofun, fun hne => absurd hnone hne⟩
      faulted := nofun }
  | backendError =>
    exact { inv_enterFault h .backendError s.waitAddr (some (encode (.ldVxK s.waitX))) 0 with wait := nofun }

theorem inv_storeBytes {s : State} (h : Inv s) {base : Nat} {bs : List Byte}
    (hN : base + bs.length ≤ s.params.memSize) : Inv (storeBytes s base bs) :=
  { h with
    mem := Memory.wf_writeBytes s.params base bs h.mem
    memBound := Memory.bounded_writeBytes s.params h.memBound hN }

theorem inv_load {s : State} (h : Inv s) (bytes : List Byte) (offset : Int) : Inv (load bytes offset s).2 := by
  rcases load_cases bytes offset s with ⟨-, hN, he⟩ | ⟨-, he⟩ <;> rw [he]
  · exact inv_storeBytes h hN
  · exact h

theorem inv_tick {s : State} (h : Inv s) : Inv (tick s) := { h with }

/-! The invariant under an instruction, part by part from `ExecEffect`. -/

section
variable {i : Instr} {s t : State} (he : ExecEffect i s t) (h : Inv s)
include he h

theorem ExecEffect.memory_canonical :
    Memory.wf t.params t.mem = true ∧ Memory.bounded t.params t.mem = true := by
  rw [he.params]
  rcases he.mem with hm | ⟨x, -, hN, hm⟩ | ⟨x, -, hN, hm⟩ <;> rw [hm]
  · exact ⟨h.mem, h.memBound⟩
  · exact ⟨Memory.wf_writeBytes _ _ _ h.mem, Memory.bounded_writeBytes _ h.memBound hN⟩
  · exact ⟨Memory.wf_writeBytes _ _ _ h.mem, Memory.bounded_writeBytes _ h.memBound (by simpa using hN)⟩

theorem ExecEffect.sp_le : t.sp.toNat ≤ 16 := by
  have hsp := h.sp
  rcases he.stk with ⟨ht, -⟩ | ⟨nnn, -, hlt, ht, -⟩ | ⟨-, h0, ht, -⟩ <;> rw [ht]
  · exact hsp
  · rw [toNat_sp_add_one hlt]; omega
  · have := toNat_sp_sub_one h0; omega

theorem ExecEffect.i_le : t.i.toNat ≤ 0xFFF := by
  rcases he.ix with ht | ⟨nnn, -, ht⟩ | ⟨x, -, ht⟩ <;> rw [ht]
  · exact h.i
  · exact toNat_addrOperand_le nnn
  · exact toNat_glyphAddr_le _

theorem ExecEffect.fb_wf : Frame.wf t.params t.fb = true := by
  have hp := h.params
  simp only [Params.wellFormed, Bool.and_eq_true] at hp
  obtain ⟨⟨-, hdisplay⟩, -⟩ := hp
  rw [he.params]
  exact he.fb hdisplay h.fb

/-- The parts of the invariant that speak of RUN, for the ways an instruction may leave it: as it was, Faulted, or as
the look of an Fx0A left it. -/
theorem ExecEffect.run_consistent (hr : s.run = .ready) :
    (t.run = .waitKey → t.pc = t.waitAddr + 2) ∧ (t.run = .waitKey ↔ t.ret = .notYet) ∧
    (t.run = .faulted ↔ t.fault.cause ≠ none) ∧ (t.run = .faulted → t.pc = t.fault.addr ∧ t.ret = .fault t.fault) := by
  have hnone : s.fault.cause = none := h.cause_eq_none (by simp [hr])
  have hclosed : s.ret ≠ .notYet := fun hn => nomatch hr.symm.trans (h.openCall.2 hn)
  rcases he.run with ⟨hrun, hret, hfault⟩ | ⟨hrun, hret, hcause, -, haddr, -⟩ |
    ⟨x, -, hfault, hpc, hwait, ⟨hrun, hret⟩ | ⟨hrun, hret⟩⟩
  · simp [hrun, hret, hfault, hr, hnone, hclosed]
  · simp [hrun, hret, hcause, haddr]
  · simp [hrun, hret, hfault, hnone]
  · simp [hrun, hret, hfault, hnone, hpc, hwait]

end

theorem inv_exec {i : Instr} {s t : State} (h : Inv s) (hr : s.run = .ready) (hexec : exec i s = .next t) : Inv t := by
  have he := exec_effect i s t hexec
  obtain ⟨hmem, hbound⟩ := he.memory_canonical h
  obtain ⟨hwait, hopen, hcause, hfaulted⟩ := he.run_consistent h hr
  obtain ⟨hunk, hunkAddr, hunkOp⟩ := he.unk
  have hreport : t.unk = false → t.unkAddr = 0 ∧ t.unkOp = 0 := by
    rw [hunk, hunkAddr, hunkOp]; exact h.unk
  exact ⟨he.params ▸ h.params, hmem, hbound, he.sp_le h, he.i_le h, he.fb_wf h, hwait, hopen, hcause, hfaulted, hreport⟩

/-! The invariant under a transition and a run. -/

theorem inv_step {s t : State} (h : Inv s) (hstep : step s = .next t) : Inv t := by
  rcases step_cases s with ⟨hr, info, -, he⟩ | ⟨hr, w, i, -, -, he⟩ | ⟨hr, w, r, -, -, he⟩ | ⟨hr, he⟩ | ⟨hr, he⟩ <;>
    rw [he] at hstep
  · cases hstep; exact inv_enterFault h _ _ _ _
  · exact inv_exec (inv_beginStep h hr) hr hstep
  · cases hstep; exact inv_unknownWord (inv_beginStep h hr) hr w
  · cases hstep; exact inv_waitOnce h hr
  · cases hstep; exact inv_repeatFault h hr

/-- Settles O4: one lemma above for each of the transitions of `step_cases`. -/
theorem everyStepKeepsTheInvariant : Obligations.EveryStepKeepsTheInvariant :=
  fun _ _ => inv_step

theorem inv_driverCall {c : DriverCall} {s t : State} (h : Inv s) (hcall : driverCall c s = .next t) : Inv t := by
  cases c <;> simp only [driverCall] at hcall
  case step =>
    split at hcall
    · cases hcall
    · exact inv_step h hcall
  case keySource =>
    split at hcall
    · exact inv_step h hcall
    · cases hcall
  case tick => cases hcall; exact inv_tick h
  case load bytes offset =>
    split at hcall <;> cases hcall
    exact inv_load h bytes offset
  case reset => cases hcall; exact inv_resetNow h
  case read => cases hcall; exact h

/-- A run that answers a next state is its first call and then the rest. -/
theorem exists_of_driverRun_cons {c : DriverCall} {calls : List DriverCall} {s t : State}
    (h : driverRun (c :: calls) s = .next t) : ∃ u, driverCall c s = .next u ∧ driverRun calls u = .next t := by
  simp only [driverRun] at h
  split at h
  · next u hu => exact ⟨u, hu, h⟩
  · cases h
  · cases h

/-- What every accepted call of a list keeps, the run of the list keeps. -/
theorem driverRun_keeps {P : State → Prop} {calls : List DriverCall}
    (hcall : ∀ c ∈ calls, ∀ s t, P s → driverCall c s = .next t → P t) {s t : State} (hs : P s)
    (h : driverRun calls s = .next t) : P t := by
  induction calls generalizing s with
  | nil => cases h; exact hs
  | cons c calls ih =>
    obtain ⟨u, hu, hrest⟩ := exists_of_driverRun_cons h
    have hPu : P u := hcall c List.mem_cons_self s u hs hu
    exact ih (fun d hd => hcall d (List.mem_cons_of_mem c hd)) hPu hrest

/-- Settles O5: `inv_driverCall` for each call, along the list by `driverRun_keeps`. -/
theorem everyDriverRunKeepsTheInvariant : Obligations.EveryDriverRunKeepsTheInvariant :=
  fun _ _ _ => driverRun_keeps fun _ _ _ _ => inv_driverCall

end Sys2Proof.Machine

/-! PROOFS. An equation a case for the instructions that can fail outside control flow, and for the sink, the key port
and the wait, by what the port answers (spec 42_index_memory.md, 44_io.md). -/

namespace Sys2Proof.Machine

/-! Memory transfers (42 R162 to R164, R166). -/

section
variable {s : State} (x : Nibble)

theorem exec_ldBVx_of_le (h : s.i.toNat + 3 ≤ s.params.memSize) :
    exec (.ldBVx x) s = .next (storeBytes s s.i.toNat (decimalDigits (getV s x))) := by
  rw [exec, execLdBVx, baseAddr, rangeFault_eq_none.2 (.inr h)]

theorem exec_ldBVx_of_lt (h : s.params.memSize < s.i.toNat + 3) : exec (.ldBVx x) s =
    .next (raise .outOfBoundsData (.ldBVx x) (max s.i.toNat s.params.memSize) s) := by
  rw [exec, execLdBVx, baseAddr, rangeFault_eq_some.2 ⟨by decide, h, rfl⟩]

theorem exec_ldMemVx_of_lt (h : s.i.toNat + x.toNat < s.params.memSize) :
    exec (.ldMemVx x) s = .next (storeBytes s s.i.toNat (getVs s x)) := by
  rw [exec, execLdMemVx, baseAddr, regCount, rangeFault_eq_none.2 (.inr h)]

theorem exec_ldMemVx_of_le (h : s.params.memSize ≤ s.i.toNat + x.toNat) : exec (.ldMemVx x) s =
    .next (raise .outOfBoundsData (.ldMemVx x) (max s.i.toNat s.params.memSize) s) := by
  rw [exec, execLdMemVx, baseAddr, regCount, rangeFault_eq_some.2 ⟨Nat.succ_ne_zero _, by omega, rfl⟩]

theorem exec_ldVxMem_of_lt (h : s.i.toNat + x.toNat < s.params.memSize) :
    exec (.ldVxMem x) s = .next (setVs s 0 (loadBytes s s.i.toNat (x.toNat + 1))) := by
  rw [exec, execLdVxMem, baseAddr, regCount, rangeFault_eq_none.2 (.inr h)]

theorem exec_ldVxMem_of_le (h : s.params.memSize ≤ s.i.toNat + x.toNat) : exec (.ldVxMem x) s =
    .next (raise .outOfBoundsData (.ldVxMem x) (max s.i.toNat s.params.memSize) s) := by
  rw [exec, execLdVxMem, baseAddr, regCount, rangeFault_eq_some.2 ⟨Nat.succ_ne_zero _, by omega, rfl⟩]

end

/-! The sink by its answer (44 R200, R201). -/

section
variable {s : State} {c : Bool} (x y : Nat) (rows : List Byte)

theorem sinkClear_of_reference (hk : s.params.sink = .reference) (ha : (takeSink s).1 = .done c) :
    sinkClear s = (true, { s with fb := [], ports := (takeSink s).2.ports }) := by
  rw [sinkClear, ← Prod.mk.eta (p := takeSink s), ha, takeSink_snd]
  simp only [hk]

theorem sinkClear_of_external (hk : s.params.sink = .external) (ha : (takeSink s).1 = .done c) :
    sinkClear s = (true, { s with ports := (takeSink s).2.ports }) := by
  rw [sinkClear, ← Prod.mk.eta (p := takeSink s), ha, takeSink_snd]
  simp only [hk]

theorem sinkClear_of_backendError (ha : (takeSink s).1 = .backendError) :
    ∃ fb ports, sinkClear s = (false, { s with fb := fb, ports := ports }) := by
  obtain ⟨fb, ports, he⟩ := exists_sinkFailed_eq { s with ports := (takeSink s).2.ports }
  refine ⟨fb, ports, ?_⟩
  rw [sinkClear, ← Prod.mk.eta (p := takeSink s), ha, takeSink_snd]
  exact congrArg (Prod.mk false) he

theorem sinkDraw_of_reference (hk : s.params.sink = .reference) (ha : (takeSink s).1 = .done c) :
    sinkDraw x y rows s = (some (setSprite s.params x y rows s.fb).2,
      { s with fb := (setSprite s.params x y rows s.fb).1, ports := (takeSink s).2.ports }) := by
  rw [sinkDraw, ← Prod.mk.eta (p := takeSink s), ha, takeSink_snd]
  simp only [hk]

theorem sinkDraw_of_external (hk : s.params.sink = .external) (ha : (takeSink s).1 = .done c) :
    sinkDraw x y rows s = (some c, { s with ports := (takeSink s).2.ports }) := by
  rw [sinkDraw, ← Prod.mk.eta (p := takeSink s), ha, takeSink_snd]
  simp only [hk]

theorem sinkDraw_of_backendError (ha : (takeSink s).1 = .backendError) :
    ∃ fb ports, sinkDraw x y rows s = (none, { s with fb := fb, ports := ports }) := by
  obtain ⟨fb, ports, he⟩ := exists_sinkFailed_eq { s with ports := (takeSink s).2.ports }
  refine ⟨fb, ports, ?_⟩
  rw [sinkDraw, ← Prod.mk.eta (p := takeSink s), ha, takeSink_snd]
  exact congrArg (Prod.mk none) he

end

/-! CLS and DRW by what the sink did (44 R202, R203). -/

section
variable {s t : State} {x y n : Nibble}

theorem exec_cls_of_sinkClear_true (h : sinkClear s = (true, t)) : exec .cls s = .next t := by
  rw [exec, execCls, h]

theorem exec_cls_of_sinkClear_false (h : sinkClear s = (false, t)) :
    exec .cls s = .next (raise .backendError .cls 0 t) := by
  rw [exec, execCls, h]

/-- The sprite of DRW, n rows from I. -/
def spriteRows (s : State) (n : Nibble) : List Byte := loadBytes s s.i.toNat n.toNat

theorem exec_drw_of_rangeFault {a : Nat} (h : rangeFault s.params.memSize s.i.toNat n.toNat = some a) :
    exec (.drw x y n) s = .next (raise .outOfBoundsData (.drw x y n) a s) := by
  rw [exec, execDrw, baseAddr, h]

theorem exec_drw_of_sinkDraw_some {hit : Bool} (hN : rangeFault s.params.memSize s.i.toNat n.toNat = none)
    (h : sinkDraw (getV s x).toNat (getV s y).toNat (spriteRows s n) s = (some hit, t)) :
    exec (.drw x y n) s = .next (setV regF (flagByte hit) t) := by
  rw [spriteRows] at h
  rw [exec, execDrw, baseAddr, hN]
  simp only [h]

theorem exec_drw_of_sinkDraw_none (hN : rangeFault s.params.memSize s.i.toNat n.toNat = none)
    (h : sinkDraw (getV s x).toNat (getV s y).toNat (spriteRows s n) s = (none, t)) :
    exec (.drw x y n) s = .next (raise .backendError (.drw x y n) 0 t) := by
  rw [spriteRows] at h
  rw [exec, execDrw, baseAddr, hN]
  simp only [h]

end

/-! The key skips (44 R204, R205). -/

section
variable {s : State} {key : Byte} (i : Instr) (want : Bool)

theorem keySkip_of_lt (h : 15 < key.toNat) : keySkip i key want s = raise .keyOutOfRange i key.toNat s :=
  if_pos h

theorem keySkip_of_held {down : Bool} (h : key.toNat ≤ 15) (ha : (takeKeyDown s).1 = .held down) :
    keySkip i key want s = skipIf (down == want) { s with ports := (takeKeyDown s).2.ports } := by
  rw [keySkip, if_neg (by omega), ← Prod.mk.eta (p := takeKeyDown s), ha, takeKeyDown_snd]

theorem keySkip_of_backendError (h : key.toNat ≤ 15) (ha : (takeKeyDown s).1 = .backendError) :
    keySkip i key want s = raise .backendError i 0 { s with ports := (takeKeyDown s).2.ports } := by
  rw [keySkip, if_neg (by omega), ← Prod.mk.eta (p := takeKeyDown s), ha, takeKeyDown_snd]

end

/-! One look at a wait, and the look of an Fx0A (44 R206). -/

section
variable {s : State}

theorem waitOnce_of_noKeyYet (ha : (takeKeyWait s).1 = .noKeyYet) :
    waitOnce s = { s with ports := (takeKeyWait s).2.ports } := by
  rw [waitOnce, ← Prod.mk.eta (p := takeKeyWait s), ha, takeKeyWait_snd]

theorem waitOnce_of_pressed {k : Nibble} (ha : (takeKeyWait s).1 = .pressed k) :
    waitOnce s = endWait k { s with ports := (takeKeyWait s).2.ports } := by
  rw [waitOnce, ← Prod.mk.eta (p := takeKeyWait s), ha, takeKeyWait_snd]

theorem waitOnce_of_backendError (ha : (takeKeyWait s).1 = .backendError) :
    waitOnce s = failWait { s with ports := (takeKeyWait s).2.ports } := by
  rw [waitOnce, ← Prod.mk.eta (p := takeKeyWait s), ha, takeKeyWait_snd]

/-- Opening a wait does not touch the Key Source: its answer is the one it had ready. -/
theorem takeKeyWait_enterWait (x : Nibble) : (takeKeyWait (enterWait x s)).1 = (takeKeyWait s).1 ∧
    (takeKeyWait (enterWait x s)).2.ports = (takeKeyWait s).2.ports := by
  cases h : s.ports.keyWait <;> simp [takeKeyWait, enterWait, h]

end

end Sys2Proof.Machine

/-! PROOFS. The step contract (spec 30_encoding.md section 1, 60_exceptions.md): what a Ready state fetches (O13, O14),
Unknown words (O15), entering and leaving Faulted (O16, O17), and the timers under a transition (O23, O24). -/

namespace Sys2Proof.Machine

open Sys2Proof.Claims

/-! The fetch and the step it starts (30 R80, R81). -/

theorem fetch_of_lt {s : State} (h : s.pc.toNat + 1 < s.params.memSize) :
    fetch s = .word (composeWord (readByte s s.pc.toNat) (readByte s (s.pc.toNat + 1))) :=
  if_neg (by omega)

theorem fetch_of_le {s : State} (h : s.params.memSize ≤ s.pc.toNat + 1) : fetch s =
    .outOfBounds (if s.params.memSize ≤ s.pc.toNat then s.pc.toNat else s.pc.toNat + 1) :=
  if_pos h

theorem step_of_fetch_outOfBounds {s : State} {info : Nat} (hr : s.run = .ready) (hf : fetch s = .outOfBounds info) :
    step s = .next (fetchFault info s) := by
  simp only [step, hr, hf]

theorem step_of_waitKey {s : State} (hr : s.run = .waitKey) : step s = .next (waitOnce s) := by
  simp only [step, hr]

theorem step_of_faulted {s : State} (hr : s.run = .faulted) : step s = .next (repeatFault s) := by
  simp only [step, hr]

/-- Settles O13: the decoded bytes are the word that `fetch_of_lt` gives. -/
theorem stepRunsTheDecodedInstruction : Obligations.StepRunsTheDecodedInstruction := by
  intro s i hr hN hd
  have hword : decodeWord (composeWord (readByte s s.pc.toNat) (readByte s (s.pc.toNat + 1))) = .instr i :=
    congrArg Prod.fst hd
  exact ⟨beginStep s, step_of_decodeWord hr (fetch_of_lt hN) hword, BitVec.toNat_add s.pc 2, rfl, sameBut_refl _ _ _ _⟩

/-- Settles O14: a failed fetch is `fetchFault`, whose info fits FAULT_INFO. -/
theorem fetchIsBigEndianAndBoundsChecked : Obligations.FetchIsBigEndianAndBoundsChecked := by
  intro s hr
  refine ⟨fun hN => ⟨_, fetch_of_lt hN, toNat_composeWord _ _⟩, fun hN => ?_⟩
  have hinfo : (if s.params.memSize ≤ s.pc.toNat then s.pc.toNat else s.pc.toNat + 1) < 2 ^ 17 := by
    have := s.pc.isLt
    split <;> omega
  exact ⟨_, step_of_fetch_outOfBounds hr (fetch_of_le hN), rfl, rfl, rfl, rfl, Nat.mod_eq_of_lt hinfo, rfl,
    sameBut_refl _ _ _ _⟩

/-! Unknown words (60 R233). -/

/-- After the PC advance the instruction's own address is the old PC (10 R24). -/
theorem beginStep_pc_sub_two (s : State) : (beginStep s).pc - 2 = s.pc :=
  BitVec.add_sub_cancel s.pc 2

/-- Settles O15: `unknownWord_cases` at the advanced PC, where PC - 2 is the word's address. -/
theorem unknownWordsFollowThePolicy : Obligations.UnknownWordsFollowThePolicy := by
  intro s w hr hf hd
  have hstep := step_of_decodeWord_rejected hr hf hd
  rcases unknownWord_cases w (beginStep s) with ⟨hp, he⟩ | ⟨hp, he⟩ | ⟨hp, he⟩ <;> rw [beginStep_params] at hp
  · rw [he, beginStep_pc_sub_two] at hstep
    exact ⟨fun _ => ⟨_, hstep, hr, rfl, rfl, rfl, rfl, sameBut_refl _ _ _ _⟩, fun hq => (nomatch hp.symm.trans hq),
      fun hq => nomatch hp.symm.trans hq⟩
  · rw [he] at hstep
    exact ⟨fun hq => (nomatch hp.symm.trans hq), fun _ => ⟨_, hstep, rfl, sameBut_refl _ _ _ _⟩,
      fun hq => nomatch hp.symm.trans hq⟩
  · rw [he, beginStep_pc_sub_two] at hstep
    exact ⟨fun hq => (nomatch hp.symm.trans hq), fun hq => (nomatch hp.symm.trans hq),
      fun _ => ⟨_, hstep, rfl, rfl, rfl, rfl, rfl, rfl, sameBut_refl _ _ _ _⟩⟩

/-! Entering Faulted (60 R232, R236). -/

/-- t is s with a fault of the instruction at a taken: everything that 60 R236 undoes is as in s. -/
structure FaultTakenAt (a : Word) (s t : State) : Prop where
  v      : ∀ r : Nibble, getV t r = getV s r
  i      : t.i = s.i
  sp     : t.sp = s.sp
  stack  : t.stack = s.stack
  dt     : t.dt = s.dt
  st     : t.st = s.st
  mem    : ∀ a : Nat, readByte t a = readByte s a
  unk    : t.unk = s.unk ∧ t.unkAddr = s.unkAddr ∧ t.unkOp = s.unkOp
  fb     : t.fault.cause ≠ some .backendError → t.fb = s.fb
  pc     : t.pc = a
  record : t.fault.addr = t.pc ∧ t.fault.cause ≠ none ∧ t.ret = .fault t.fault

theorem faultTakenAt_enterFault (c : Cause) (a : Word) (op : Option Word) (info : Nat) (s : State) :
    FaultTakenAt a s (enterFault c a op info s) :=
  ⟨fun _ => rfl, rfl, rfl, rfl, rfl, rfl, fun _ => rfl, ⟨rfl, rfl, rfl⟩, fun _ => rfl, rfl, ⟨rfl, nofun, rfl⟩⟩

/-- An instruction that enters Faulted, by the second of the ways `ExecEffect.run` gives. -/
theorem faultTakenAt_exec {i : Instr} {s t : State} (hr : s.run = .ready) (h : exec i s = .next t)
    (ht : t.run = .faulted) :
    FaultTakenAt (s.pc - 2) s t ∧ t.waitX = s.waitX ∧ t.waitAddr = s.waitAddr := by
  have he := exec_effect i s t h
  rcases he.run with ⟨hrun, -⟩ |
    ⟨-, hret, hcause, hpc, haddr, hv, hi, hm, hsp, hst, hdt, hst', hx, ha, hfb⟩ |
    ⟨x, -, -, -, -, ⟨hrun, -⟩ | ⟨hrun, -⟩⟩
  · cases (ht.symm.trans hrun).trans hr
  · exact ⟨⟨hv, hi, hsp, hst, hdt, hst', readByte_congr he.params hm, he.unk, hfb, hpc, haddr, hcause, hret⟩, hx, ha⟩
  · cases ht.symm.trans hrun
  · cases ht.symm.trans hrun

theorem unknownWord_of_faulted {w : Word} {s : State} (hr : s.run = .ready) (h : (unknownWord w s).run = .faulted) :
    unknownWord w s = enterFault .unknownOpcode (s.pc - 2) (some w) 0 s := by
  rcases unknownWord_cases w s with ⟨-, he⟩ | ⟨-, he⟩ | ⟨-, he⟩
  · rw [he] at h; cases hr.symm.trans h
  · rw [he] at h; cases hr.symm.trans h
  · exact he

/-- A wait that ends in Faulted has failed (44 R206). -/
theorem waitOnce_of_faulted {s : State} (hr : s.run = .waitKey) (h : (waitOnce s).run = .faulted) :
    ∃ ports, waitOnce s = failWait { s with ports := ports } := by
  obtain ⟨a, ports, he⟩ := takeKeyWait_eq s
  rw [waitOnce, he] at h ⊢
  cases a with
  | noKeyYet => cases hr.symm.trans h
  | pressed k => cases h
  | backendError => exact ⟨ports, rfl⟩

/-- What a fault of a Ready step leaves of the wait's record (log 11). -/
theorem faultTakenAt_step_of_ready {s t : State} (hr : s.run = .ready) (hstep : step s = .next t)
    (ht : t.run = .faulted) : FaultTakenAt s.pc s t ∧ t.waitX = s.waitX ∧ t.waitAddr = s.waitAddr := by
  have hpc := beginStep_pc_sub_two s
  rcases step_cases s with ⟨-, info, -, he⟩ | ⟨-, w, i, -, -, he⟩ | ⟨-, w, r, -, -, he⟩ | ⟨hr', -⟩ | ⟨hr', -⟩
  · cases he.symm.trans hstep
    exact ⟨faultTakenAt_enterFault _ _ _ _ s, rfl, rfl⟩
  · obtain ⟨hf, hx, ha⟩ := faultTakenAt_exec (s := beginStep s) hr (he.symm.trans hstep) ht
    rw [hpc] at hf
    exact ⟨{ hf with }, hx, ha⟩
  · cases he.symm.trans hstep
    rw [unknownWord_of_faulted (s := beginStep s) hr ht, hpc]
    exact ⟨{ faultTakenAt_enterFault .unknownOpcode s.pc (some w) 0 (beginStep s) with }, rfl, rfl⟩
  · cases hr.symm.trans hr'
  · cases hr.symm.trans hr'

/-- A fault of an open wait gives back what WAIT_X and WAIT_ADDR held before the Fx0A (log 11). -/
theorem faultTakenAt_step_of_waitKey {s t : State} (hr : s.run = .waitKey) (hstep : step s = .next t)
    (ht : t.run = .faulted) : FaultTakenAt s.waitAddr s t ∧ t.waitX = s.undoX ∧ t.waitAddr = s.undoAddr := by
  cases (step_of_waitKey hr).symm.trans hstep
  obtain ⟨ports, he⟩ := waitOnce_of_faulted hr ht
  rw [he]
  exact ⟨{ faultTakenAt_enterFault .backendError s.waitAddr (some (encode (.ldVxK s.waitX))) 0 s with }, rfl, rfl⟩

/-- Settles O16, for the two run states a fault can be entered from. -/
theorem fatalFaultsArePrecise : Obligations.FatalFaultsArePrecise := by
  intro s t hs hstep ht
  cases hr : s.run with
  | ready =>
    obtain ⟨hf, hx, ha⟩ := faultTakenAt_step_of_ready hr hstep ht
    obtain ⟨hunk, hunkAddr, hunkOp⟩ := hf.unk
    exact ⟨hf.v, hf.i, hf.sp, hf.stack, hf.dt, hf.st, hf.mem, hunk, hunkAddr, hunkOp, hf.fb, fun _ => ⟨hx, ha⟩, nofun,
      hf.pc, hf.record⟩
  | waitKey =>
    obtain ⟨hf, hx, ha⟩ := faultTakenAt_step_of_waitKey hr hstep ht
    obtain ⟨hunk, hunkAddr, hunkOp⟩ := hf.unk
    exact ⟨hf.v, hf.i, hf.sp, hf.stack, hf.dt, hf.st, hf.mem, hunk, hunkAddr, hunkOp, hf.fb, nofun, fun _ => ⟨hx, ha⟩,
      hf.pc, hf.record⟩
  | faulted => exact absurd hr hs

/-! In Faulted (60 R237). -/

/-- t is Faulted with the record of s, and with its PC, SP, stack, I and registers. -/
structure StillFaulted (s t : State) : Prop where
  run   : t.run = .faulted
  fault : t.fault = s.fault
  pc    : t.pc = s.pc
  sp    : t.sp = s.sp
  stack : t.stack = s.stack
  i     : t.i = s.i
  v     : t.v = s.v

theorem StillFaulted.trans {s t u : State} (hst : StillFaulted s t) (htu : StillFaulted t u) : StillFaulted s u :=
  ⟨htu.run, htu.fault.trans hst.fault, htu.pc.trans hst.pc, htu.sp.trans hst.sp, htu.stack.trans hst.stack,
    htu.i.trans hst.i, htu.v.trans hst.v⟩

theorem stillFaulted_refl {s : State} (hr : s.run = .faulted) : StillFaulted s s :=
  ⟨hr, rfl, rfl, rfl, rfl, rfl, rfl⟩

theorem driverCall_step_of_ne_waitKey {s : State} (h : s.run ≠ .waitKey) : driverCall .step s = step s :=
  if_neg h

theorem driverCall_load_of_ne_waitKey {s : State} (h : s.run ≠ .waitKey) (bytes : List Byte) (offset : Int) :
    driverCall (.load bytes offset) s = .next (load bytes offset s).2 :=
  if_neg h

theorem driverCall_keySource_of_waitKey {s : State} (h : s.run = .waitKey) :
    driverCall .keySource s = .next (waitOnce s) :=
  (if_pos h).trans (step_of_waitKey h)

theorem driverCall_step_of_faulted {s : State} (hr : s.run = .faulted) :
    driverCall .step s = .next (repeatFault s) :=
  (driverCall_step_of_ne_waitKey (by simp [hr])).trans (step_of_faulted hr)

/-- No call but a reset leaves Faulted, a call that is refused among them. -/
theorem stillFaulted_driverCall {c : DriverCall} {s t : State} (hc : c ≠ .reset) (hr : s.run = .faulted)
    (h : driverCall c s = .next t) : StillFaulted s t := by
  have hw : s.run ≠ .waitKey := by simp [hr]
  cases c with
  | step =>
    cases (driverCall_step_of_faulted hr).symm.trans h
    exact ⟨hr, rfl, rfl, rfl, rfl, rfl, rfl⟩
  | keySource => rw [driverCall, if_neg hw] at h; cases h
  | tick => cases h; exact ⟨hr, rfl, rfl, rfl, rfl, rfl, rfl⟩
  | load bytes offset =>
    cases (driverCall_load_of_ne_waitKey hw bytes offset).symm.trans h
    rcases load_cases bytes offset s with ⟨-, -, he⟩ | ⟨-, he⟩ <;> rw [he] <;> exact ⟨hr, rfl, rfl, rfl, rfl, rfl, rfl⟩
  | reset => exact absurd rfl hc
  | read => cases h; exact stillFaulted_refl hr

/-- Settles O17: the calls one by one, and a sequence without a reset by `driverRun_keeps`. -/
theorem onlyResetLeavesFaulted : Obligations.OnlyResetLeavesFaulted := by
  intro s hr
  refine ⟨⟨_, driverCall_step_of_faulted hr, rfl, sameBut_refl _ _ _ _⟩, fun hret => ?_, rfl, rfl,
    driverCall_load_of_ne_waitKey (by simp [hr]), ⟨_, rfl, rfl⟩, fun calls t hcalls hrun => ?_⟩
  · rw [driverCall_step_of_faulted hr, repeatFault, ← hret]
  · have hcall : ∀ c ∈ calls, ∀ u w, StillFaulted s u → driverCall c u = .next w → StillFaulted s w :=
      fun c hc u w hu h => hu.trans (stillFaulted_driverCall (fun he => hcalls (he ▸ hc)) hu.run h)
    obtain ⟨ht, hfault, hpc, hsp, hstack, hi, hv⟩ := driverRun_keeps hcall (stillFaulted_refl hr) hrun
    exact ⟨ht, hfault, hpc, hsp, hstack, hi, getV_congr hv⟩

/-! The timers under a transition (43 R186). -/

theorem waitOnce_timers (s : State) : (waitOnce s).dt = s.dt ∧ (waitOnce s).st = s.st := by
  obtain ⟨a, ports, he⟩ := takeKeyWait_eq s
  rw [waitOnce, he]
  cases a <;> exact ⟨rfl, rfl⟩

theorem unknownWord_timers (w : Word) (s : State) : (unknownWord w s).dt = s.dt ∧ (unknownWord w s).st = s.st := by
  rcases unknownWord_cases w s with ⟨-, he⟩ | ⟨-, he⟩ | ⟨-, he⟩ <;> rw [he] <;> exact ⟨rfl, rfl⟩

/-- Settles O23: outside Ready and at a failed fetch no timer is written, and an instruction writes one only as
`ExecEffect` says. -/
theorem stepNeverTicks : Obligations.StepNeverTicks := by
  refine ⟨fun s t hs hstep => ?_, fun s t info hr hf hstep => ?_, fun s t w hr hf hstep => ?_⟩
  · cases hr : s.run with
    | ready => exact absurd hr hs
    | waitKey => cases (step_of_waitKey hr).symm.trans hstep; exact waitOnce_timers s
    | faulted => cases (step_of_faulted hr).symm.trans hstep; exact ⟨rfl, rfl⟩
  · cases (step_of_fetch_outOfBounds hr hf).symm.trans hstep
    exact ⟨rfl, rfl⟩
  · cases hd : decodeWord w with
    | instr i =>
      have he := exec_effect i (beginStep s) t ((step_of_decodeWord hr hf hd).symm.trans hstep)
      exact ⟨he.dt.imp_right fun ⟨x, hi, hx⟩ => ⟨x, congrArg Decoded.instr hi, hx⟩,
        he.st.imp_right fun ⟨x, hi, hx⟩ => ⟨x, congrArg Decoded.instr hi, hx⟩⟩
    | rejected r =>
      cases (step_of_decodeWord_rejected hr hf hd).symm.trans hstep
      obtain ⟨hdt, hst⟩ := unknownWord_timers w (beginStep s)
      exact ⟨.inl hdt, .inl hst⟩

/-! Every operation at two values of ST (10 R31): the same but for ST. -/

section
variable (s : State) (b : Byte)

theorem takeRandom_withSt :
    takeRandom { s with st := b } = ((takeRandom s).1, { (takeRandom s).2 with st := b }) := by
  cases h : s.ports.random <;> simp [takeRandom, h]

theorem takeKeyDown_withSt :
    takeKeyDown { s with st := b } = ((takeKeyDown s).1, { (takeKeyDown s).2 with st := b }) := by
  cases h : s.ports.keyDown <;> simp [takeKeyDown, h]

theorem takeKeyWait_withSt :
    takeKeyWait { s with st := b } = ((takeKeyWait s).1, { (takeKeyWait s).2 with st := b }) := by
  cases h : s.ports.keyWait <;> simp [takeKeyWait, h]

theorem takeSink_withSt : takeSink { s with st := b } = ((takeSink s).1, { (takeSink s).2 with st := b }) := by
  cases h : s.ports.display <;> simp [takeSink, h]

theorem sinkFailed_withSt : sinkFailed { s with st := b } = { sinkFailed s with st := b } := by
  cases h : s.params.sink <;> simp [sinkFailed, h]

theorem sinkClear_withSt : sinkClear { s with st := b } = ((sinkClear s).1, { (sinkClear s).2 with st := b }) := by
  rw [sinkClear, sinkClear, takeSink_withSt]
  rcases takeSink s with ⟨a, t⟩
  cases a with
  | backendError => exact congrArg _ (sinkFailed_withSt t b)
  | done c => cases h : t.params.sink <;> simp only [h]

theorem sinkDraw_withSt (x y : Nat) (rows : List Byte) : sinkDraw x y rows { s with st := b } =
    ((sinkDraw x y rows s).1, { (sinkDraw x y rows s).2 with st := b }) := by
  rw [sinkDraw, sinkDraw, takeSink_withSt]
  rcases takeSink s with ⟨a, t⟩
  cases a with
  | backendError => exact congrArg _ (sinkFailed_withSt t b)
  | done c => cases h : t.params.sink <;> simp only [h]

theorem skipIf_withSt (c : Bool) : skipIf c { s with st := b } = { skipIf c s with st := b } := by
  cases c <;> rfl

theorem setVs_withSt (k : Nat) (bs : List Byte) : setVs { s with st := b } k bs = { setVs s k bs with st := b } := by
  induction bs generalizing s k with
  | nil => rfl
  | cons c rest ih => exact ih (setV (BitVec.ofNat 4 k) c s) (k + 1)

theorem keySkip_withSt (i : Instr) (key : Byte) (want : Bool) :
    keySkip i key want { s with st := b } = { keySkip i key want s with st := b } := by
  rw [keySkip, keySkip, takeKeyDown_withSt]
  split
  · rfl
  · rcases takeKeyDown s with ⟨a, t⟩
    cases a with
    | held down => exact skipIf_withSt t b _
    | backendError => rfl

theorem waitOnce_withSt : waitOnce { s with st := b } = { waitOnce s with st := b } := by
  rw [waitOnce, waitOnce, takeKeyWait_withSt]
  rcases takeKeyWait s with ⟨a, t⟩
  cases a <;> rfl

theorem unknownWord_withSt (w : Word) : unknownWord w { s with st := b } = { unknownWord w s with st := b } := by
  cases hp : s.params.policy <;> cases hu : s.unk <;> simp [unknownWord, enterFault, instrAddr, hp, hu]

end

/-- An instruction at another value of ST: the same state but for ST, which Fx18 writes and no other (10 R31). -/
theorem exec_withSt {i : Instr} {s t : State} (h : exec i s = .next t) (b : Byte) :
    ∃ c, exec i { s with st := b } = .next { t with st := c } := by
  cases i
  case ldStVx x => cases h; exact ⟨getV s x, rfl⟩
  case seImm | sneImm | seReg | sneReg => cases h; exact ⟨b, congrArg _ (skipIf_withSt s b _)⟩
  case skp | sknp => cases h; exact ⟨b, congrArg _ (keySkip_withSt s b _ _ _)⟩
  case ldVxK x => cases h; exact ⟨b, congrArg _ (waitOnce_withSt (enterWait x s) b)⟩
  case rnd x kk =>
    cases h
    refine ⟨b, ?_⟩
    rw [exec, execRnd, takeRandom_withSt]
    rfl
  case cls =>
    refine ⟨b, ?_⟩
    have he := sinkClear_withSt s b
    rcases hc : sinkClear s with ⟨_ | _, u⟩ <;> rw [hc] at he
    · cases (exec_cls_of_sinkClear_false hc).symm.trans h
      exact exec_cls_of_sinkClear_false he
    · cases (exec_cls_of_sinkClear_true hc).symm.trans h
      exact exec_cls_of_sinkClear_true he
  case drw x y n =>
    refine ⟨b, ?_⟩
    have he := sinkDraw_withSt s b (getV s x).toNat (getV s y).toNat (spriteRows s n)
    cases hN : rangeFault s.params.memSize s.i.toNat n.toNat with
    | some a =>
      cases (exec_drw_of_rangeFault hN).symm.trans h
      exact exec_drw_of_rangeFault (s := { s with st := b }) hN
    | none =>
      rcases hc : sinkDraw (getV s x).toNat (getV s y).toNat (spriteRows s n) s with ⟨_ | hit, u⟩ <;> rw [hc] at he
      · cases (exec_drw_of_sinkDraw_none hN hc).symm.trans h
        exact exec_drw_of_sinkDraw_none (s := { s with st := b }) hN he
      · cases (exec_drw_of_sinkDraw_some hN hc).symm.trans h
        exact exec_drw_of_sinkDraw_some (s := { s with st := b }) hN he
  case ret =>
    refine ⟨b, ?_⟩
    simp only [exec, execRet] at h
    split at h
    · next h0 => cases h; exact exec_ret_of_sp_eq_zero (s := { s with st := b }) h0
    · next h0 =>
      split at h <;> cases h
      next hw => exact exec_ret_of_stackAt (s := { s with st := b }) h0 hw
  case call nnn =>
    refine ⟨b, ?_⟩
    rcases Nat.lt_or_ge s.sp.toNat 16 with hsp | hsp
    · rw [exec_call_of_lt nnn hsp] at h
      cases h; exact exec_call_of_lt (s := { s with st := b }) nnn hsp
    · rw [exec_call_of_le nnn hsp] at h
      cases h; exact exec_call_of_le (s := { s with st := b }) nnn hsp
  case ldBVx | ldMemVx =>
    refine ⟨b, ?_⟩
    simp only [exec, execLdBVx, execLdMemVx, baseAddr] at h ⊢
    split at h <;> cases h <;> rfl
  case ldVxMem x =>
    refine ⟨b, ?_⟩
    simp only [exec, execLdVxMem, baseAddr] at h ⊢
    split at h <;> cases h
    · rfl
    · exact congrArg _ (setVs_withSt s b 0 _)
  all_goals cases h; exact ⟨b, rfl⟩

/-- A transition at another value of ST: the same state but for ST. -/
theorem step_withSt {s t : State} (h : step s = .next t) (b : Byte) :
    ∃ c, step { s with st := b } = .next { t with st := c } := by
  rcases step_cases s with ⟨hr, n, hf, he⟩ | ⟨hr, w, i, hf, hd, he⟩ | ⟨hr, w, r, hf, hd, he⟩ | ⟨hr, he⟩ | ⟨hr, he⟩ <;>
    rw [he] at h
  · cases h
    exact ⟨b, step_of_fetch_outOfBounds (s := { s with st := b }) hr hf⟩
  · obtain ⟨c, hc⟩ := exec_withSt h b
    exact ⟨c, (step_of_decodeWord (s := { s with st := b }) hr hf hd).trans hc⟩
  · cases h
    refine ⟨b, (step_of_decodeWord_rejected (s := { s with st := b }) hr hf hd).trans ?_⟩
    exact congrArg _ (unknownWord_withSt (beginStep s) b w)
  · cases h
    exact ⟨b, (step_of_waitKey (s := { s with st := b }) hr).trans (congrArg _ (waitOnce_withSt s b))⟩
  · cases h
    exact ⟨b, step_of_faulted (s := { s with st := b }) hr⟩

/-- Settles O24: `step_withSt`, with ST put back. -/
theorem noInstructionReadsSt : Obligations.NoInstructionReadsSt := by
  intro s t b h
  obtain ⟨c, hc⟩ := step_withSt h b
  exact ⟨_, hc, rfl⟩

end Sys2Proof.Machine

/-! PROOFS. What one instruction does (spec 41_alu.md section 5, 42_index_memory.md, 43_timers.md): RET above the stack
(O29), the Random Source and the ports' answers (O38, O39), I (O40), the memory transfers (O42 to O46), the timer
instructions (O47, O48), the loader (O59) and the terminal states (O60). -/

namespace Sys2Proof.Machine

open Sys2Proof.Claims

/-- Settles O29: above 16 the entry RET would pop does not exist. -/
theorem retStopsWhereTheStackHasNoEntry : Obligations.RetStopsWhereTheStackHasNoEntry := by
  intro s h
  have h0 : s.sp ≠ 0 := fun he => by simp [he] at h
  rw [exec, execRet, if_neg h0, stackAt_ge s (by omega)]

/-! The ports (41 R143, log 7). -/

theorem exec_rnd (x : Nibble) (kk : Byte) (s : State) : exec (.rnd x kk) s =
    .next (setV x ((takeRandom s).1 &&& kk) { s with ports := (takeRandom s).2.ports }) := by
  rw [← takeRandom_snd]; rfl

/-- Settles O38: the answer is taken whatever kk, and the AND with kk is bit by bit. -/
theorem randomTakesOneAnswer : Obligations.RandomTakesOneAnswer := by
  intro s x kk
  refine ⟨decodeWord_encode (.rnd x kk), _, exec_rnd x kk s, fun b => ?_, sameBut_setV _ _ _, ?_, ?_⟩
  · rw [getV_setV_self, BitVec.getLsbD_and]
  · rintro rfl
    rw [getV_setV_self]
    exact BitVec.and_zero
  · rintro rfl
    rw [getV_setV_self]
    exact Laws.EncodingRow.byte_and _

/-- Settles O39, by the two cases of each port's list. -/
theorem portsAnswerFromTheirListsOrFreely : Obligations.PortsAnswerFromTheirListsOrFreely := fun _ =>
  ⟨fun _ _ h => by rw [takeRandom, h], fun _ _ h => by rw [takeKeyDown, h], fun _ _ h => by rw [takeKeyWait, h],
    fun _ _ h => by rw [takeSink, h], fun h => by rw [takeRandom, h], fun h => by rw [takeKeyDown, h],
    fun h => by rw [takeKeyWait, h], fun h => by rw [takeSink, h]⟩

/-! The index register (42 R160, R161). -/

/-- Settles O40: the operand and the glyph's address are exact in 16 bits. -/
theorem indexRegisterIsSet : Obligations.IndexRegisterIsSet := fun _ nnn x =>
  ⟨decodeWord_encode (.ldI nnn), decodeWord_encode (.ldFVx x), ⟨_, rfl, toNat_addrOperand nnn, sameBut_refl _ _ _ _⟩,
    ⟨_, rfl, (toNat_glyphAddr _).trans (Nat.mul_comm _ _), sameBut_refl _ _ _ _⟩⟩

/-! Memory after a store, and the frames of a store and of a block load. -/

theorem sameBut_storeBytes (s : State) (base : Nat) (bs : List Byte) :
    SameBut [] base bs.length s (storeBytes s base bs) :=
  { sameBut_refl [] base bs.length s with mem := fun _ h => readByte_storeBytes_other s base bs h }

/-- The block load writes registers only (42 R164). -/
theorem sameBut_setVs {regs : List Nibble} {s : State} {k : Nat} {bs : List Byte}
    (h : ∀ r ∉ regs, getV (setVs s k bs) r = getV s r) : SameBut regs 0 0 s (setVs s k bs) := by
  obtain ⟨v, hv⟩ := setVs_eq s k bs
  rw [hv] at h ⊢
  exact { sameBut_refl regs 0 0 s with v := h }

theorem setVs_run (s : State) (k : Nat) (bs : List Byte) : (setVs s k bs).run = s.run := by
  obtain ⟨v, hv⟩ := setVs_eq s k bs
  rw [hv]

/-- A byte after the store of V0..Vx (42 R163). -/
theorem readByte_storeBytes_getVs {s : State} (hm : Memory.wf s.params s.mem = true) (x : Nibble) (a : Nat) :
    readByte (storeBytes s s.i.toNat (getVs s x)) a = byteAfterFx55 s x a := by
  have hlen := length_getVs s x
  unfold byteAfterFx55
  split
  · next h =>
    obtain ⟨k, rfl⟩ := Nat.exists_eq_add_of_le h.1
    have hk : k < (getVs s x).length := by omega
    rw [readByte_storeBytes_at s _ _ hm hk, getElem_getVs, Nat.add_sub_cancel_left]
  · exact readByte_storeBytes_other s _ _ (by omega)

/-- Byte k of the stored block is V[k]. -/
theorem byteAfterFx55_of_le (s : State) {k x : Nibble} (hk : k ≤ x) :
    byteAfterFx55 s x (s.i.toNat + k.toNat) = getV s k := by
  have hkx : k.toNat ≤ x.toNat := hk
  rw [byteAfterFx55, if_pos (by omega), Nat.add_sub_cancel_left, BitVec.ofNat_toNat, BitVec.setWidth_eq]

/-- A byte after the store of the decimal digits (42 R162). -/
theorem readByte_storeBytes_decimalDigits {s : State} (hm : Memory.wf s.params s.mem = true) (x : Nibble) (a : Nat) :
    readByte (storeBytes s s.i.toNat (decimalDigits (getV s x))) a = byteAfterFx33 s x a := by
  have hat {k : Nat} (hk : k < 3) := readByte_storeBytes_at s s.i.toNat (decimalDigits (getV s x)) hm hk
  unfold byteAfterFx33
  split
  · next h => rw [h]; exact hat (k := 0) (by decide)
  split
  · next h => rw [h]; exact hat (k := 1) (by decide)
  split
  · next h => rw [h]; exact hat (k := 2) (by decide)
  · exact readByte_storeBytes_other s _ _ (by simp only [decimalDigits, List.length_cons, List.length_nil]; omega)

/-- FAULT_INFO of a range of at most sixteen bytes fits its 17 bits. -/
theorem max_toNat_lt {n len : Nat} {w : Word} (h : n ≤ w.toNat + len) (hlen : len ≤ 16) :
    max w.toNat n < 2 ^ 17 := by
  have := w.isLt
  omega

/-- Settles O42: the digits are below 256, and the range check comes first. -/
theorem decimalStore : Obligations.DecimalStore := by
  intro s x hm
  refine ⟨decodeWord_encode (.ldBVx x), fun hN => ?_, fun hN => ?_⟩
  · have hbyte := readByte_storeBytes_decimalDigits hm x
    have hlt := (getV s x).isLt
    refine ⟨_, exec_ldBVx_of_le x (by omega), ?_, ?_, ?_, sameBut_storeBytes s s.i.toNat (decimalDigits (getV s x))⟩ <;>
      rw [hbyte] <;> simp [byteAfterFx33] <;> omega
  · exact ⟨_, exec_ldBVx_of_lt x (by omega), trapped_raise _ _ s (max_toNat_lt (len := 2) (by omega) (by decide))⟩

/-- Settles O43: `byteAfterFx55_of_le` for every k up to x. -/
theorem blockStore : Obligations.BlockStore := by
  intro s x hm
  have hx := x.isLt
  refine ⟨decodeWord_encode (.ldMemVx x), fun hN => ⟨_, exec_ldMemVx_of_lt x hN, fun k hk => ?_, ?_⟩, fun hN => ?_⟩
  · rw [readByte_storeBytes_getVs hm, byteAfterFx55_of_le s hk]
  · exact length_getVs s x ▸ sameBut_storeBytes s s.i.toNat (getVs s x)
  · exact ⟨_, exec_ldMemVx_of_le x hN, trapped_raise _ _ s (max_toNat_lt hN (by omega))⟩

/-- Register k after the load of V0..Vx is byte k of the block (42 R164). -/
theorem getV_setVs_loadBytes_of_le (s : State) (base : Nat) {k x : Nibble} (hk : k ≤ x) :
    getV (setVs s 0 (loadBytes s base (x.toNat + 1))) k = readByte s (base + k.toNat) := by
  have hx := x.isLt
  have hkx : k.toNat ≤ x.toNat := hk
  have hlen := length_loadBytes s base (x.toNat + 1)
  rw [getV_setVs _ _ _ (by omega), dif_pos (by omega), getElem_loadBytes, Nat.sub_zero]

/-- Settles O44: registers up to x by `getV_setVs_loadBytes_of_le`, those above by `getV_setVs_loadBytes_of_lt`. -/
theorem blockLoad : Obligations.BlockLoad := by
  intro s x
  have hx := x.isLt
  refine ⟨decodeWord_encode (.ldVxMem x), fun hN => ⟨_, exec_ldVxMem_of_lt x hN,
    fun k => getV_setVs_loadBytes_of_le s s.i.toNat, fun k => getV_setVs_loadBytes_of_lt s s.i.toNat, ?_⟩, fun hN => ?_⟩
  · exact sameBut_setVs fun r hr => getV_setVs_loadBytes_of_lt s s.i.toNat (lt_of_not_mem_writes_ldVxMem hr)
  · exact ⟨_, exec_ldVxMem_of_le x hN, trapped_raise _ _ s (max_toNat_lt hN (by omega))⟩

/-! A store that did not fault. -/

theorem exec_ldMemVx_of_ready {s t : State} {x : Nibble} (h : exec (.ldMemVx x) s = .next t) (ht : t.run = .ready) :
    s.i.toNat + x.toNat < s.params.memSize ∧ t = storeBytes s s.i.toNat (getVs s x) := by
  rcases Nat.lt_or_ge (s.i.toNat + x.toNat) s.params.memSize with hN | hN
  · cases (exec_ldMemVx_of_lt x hN).symm.trans h
    exact ⟨hN, rfl⟩
  · cases (exec_ldMemVx_of_le x hN).symm.trans h
    cases ht

theorem exec_ldBVx_of_ready {s t : State} {x : Nibble} (h : exec (.ldBVx x) s = .next t) (ht : t.run = .ready) :
    t = storeBytes s s.i.toNat (decimalDigits (getV s x)) := by
  rcases Nat.lt_or_ge s.params.memSize (s.i.toNat + 3) with hN | hN
  · cases (exec_ldBVx_of_lt x hN).symm.trans h
    cases ht
  · cases (exec_ldBVx_of_le x hN).symm.trans h
    rfl

/-- Settles O45: the load reads at I + k the byte the store put there. -/
theorem blockStoreThenLoadRoundTrips : Obligations.BlockStoreThenLoadRoundTrips := by
  intro s t u x hm _ hstore ht hi hmem hparams hu
  obtain ⟨hN, rfl⟩ := exec_ldMemVx_of_ready hstore ht
  have hui : u.i = s.i := hi
  have hNu : u.i.toNat + x.toNat < u.params.memSize := by rw [hui, hparams]; exact hN
  refine ⟨_, exec_ldVxMem_of_lt x hNu, (setVs_run _ _ _).trans hu, fun k hk => ?_⟩
  rw [getV_setVs_loadBytes_of_le u _ hk, readByte_congr hparams hmem, hui, readByte_storeBytes_getVs hm,
    byteAfterFx55_of_le s hk]

/-- The fetch after a store, which moves neither PC nor the parameters (20 R66). -/
theorem fetch_storeBytes {s : State} (hN : s.pc.toNat + 1 < s.params.memSize) (base : Nat) (bs : List Byte) :
    fetch (storeBytes s base bs) = .word (readByte (storeBytes s base bs) s.pc.toNat ++
      readByte (storeBytes s base bs) (s.pc.toNat + 1)) :=
  fetch_of_lt (s := storeBytes s base bs) hN

/-- Settles O46: the fetch reads the bytes that the two stores leave. -/
theorem storesAreSeenByTheNextFetch : Obligations.StoresAreSeenByTheNextFetch := by
  intro s t x hm _ hN ht
  refine ⟨fun h => ?_, fun h => ?_⟩
  · obtain ⟨-, rfl⟩ := exec_ldMemVx_of_ready h ht
    rw [fetch_storeBytes hN, readByte_storeBytes_getVs hm, readByte_storeBytes_getVs hm]
  · obtain rfl := exec_ldBVx_of_ready h ht
    rw [fetch_storeBytes hN, readByte_storeBytes_decimalDigits hm, readByte_storeBytes_decimalDigits hm]

/-! Timers (43 R180 to R183). -/

/-- Settles O47: each is one write. -/
theorem timerInstructions : Obligations.TimerInstructions := fun _ x =>
  ⟨decodeWord_encode (.ldVxDt x), decodeWord_encode (.ldDtVx x), decodeWord_encode (.ldStVx x),
    ⟨_, rfl, getV_setV_self _ _ _, sameBut_setV _ _ _⟩, ⟨_, rfl, rfl, sameBut_refl _ _ _ _⟩,
    ⟨_, rfl, rfl, sameBut_refl _ _ _ _⟩⟩

/-- Settles O48: Fy07 reads the DT that Fx15 wrote. -/
theorem delayTimerRoundTripIsLossless : Obligations.DelayTimerRoundTripIsLossless := by
  intro s t u x y ht hu
  cases ht
  cases hu
  exact getV_setV_self _ _ _

/-! The loader (20 R60). -/

theorem load_of_le {s : State} {bytes : List Byte} {base : Nat} (h : base + bytes.length ≤ s.params.memSize) :
    load bytes base s = (.ok, storeBytes s base bytes) :=
  if_neg (by omega)

/-- Settles O59: a load inside memory is a store, and one outside does nothing. -/
theorem loaderChecksThenCopies : Obligations.LoaderChecksThenCopies := by
  intro s bytes offset hm
  refine ⟨fun base hbase hN => ?_, fun hout => if_pos hout⟩
  subst hbase
  rw [load_of_le hN]
  exact ⟨rfl, fun k hk => readByte_storeBytes_at s base bytes hm hk, sameBut_storeBytes s base bytes⟩

/-! The end of a run (70 R280). -/

/-- PC below 0x1000 is the target of the jump to itself. -/
theorem toNat_pc_setWidth {s : State} (h : s.pc.toNat < 0x1000) : (s.pc.setWidth 12).toNat = s.pc.toNat :=
  (BitVec.toNat_setWidth _ _).trans (Nat.mod_eq_of_lt h)

theorem terminal_iff {s : State} : terminal s = true ↔ s.run = .ready ∧ s.pc.toNat < 0x1000 ∧
    fetch s = .word (encode (.jp (s.pc.setWidth 12))) := by
  unfold terminal
  cases fetch s with
  | outOfBounds info => simp
  | word w => simp [and_comm]

/-- The word of a jump is fixed by its target (30 R86). -/
theorem decodeWord_eq_jp_iff {w : Word} {nnn : Addr12} : decodeWord w = .instr (.jp nnn) ↔ w = encode (.jp nnn) :=
  ⟨fun h => (encode_of_decodeWord h).symm, fun h => h ▸ decodeWord_encode (.jp nnn)⟩

/-- Settles O60: the fetched word is the jump to PC, which the decoder reads back, and the jump puts PC where it was. -/
theorem terminalStatesStayPut : Obligations.TerminalStatesStayPut := by
  intro s
  refine ⟨terminal_iff.trans ⟨fun ⟨hr, hpc, hf⟩ => ?_, fun ⟨hr, hN, nnn, hnnn, hd⟩ => ?_⟩, fun h => ?_⟩
  · rcases fetch_eq s with ⟨hN, he⟩ | ⟨-, he⟩
    · have hw := Fetched.word.inj (he.symm.trans hf)
      exact ⟨hr, hN, s.pc.setWidth 12, toNat_pc_setWidth hpc, decodeWord_eq_jp_iff.2 hw⟩
    · cases he.symm.trans hf
  · have hpc : s.pc.toNat < 0x1000 := hnnn ▸ nnn.isLt
    have htarget : nnn = s.pc.setWidth 12 := BitVec.eq_of_toNat_eq (hnnn.trans (toNat_pc_setWidth hpc).symm)
    exact ⟨hr, hpc, htarget ▸ decodeWord_eq_jp_iff.1 hd ▸ fetch_of_lt hN⟩
  · obtain ⟨hr, hpc, hf⟩ := terminal_iff.1 h
    have htarget : addrOperand (s.pc.setWidth 12) = s.pc :=
      BitVec.eq_of_toNat_eq ((toNat_addrOperand _).trans (toNat_pc_setWidth hpc))
    rw [step_of_decodeWord hr hf (decodeWord_encode _), exec, execJp, htarget]
    rfl

end Sys2Proof.Machine

/-! PROOFS. The display (spec 44_io.md sections 1 and 2): setSprite pixel by pixel (O52), a sprite drawn twice (O53),
and CLS and DRW on the reference sink and on an external one (O50, O51, O54). -/

namespace Sys2Proof.Machine

open Sys2Proof.Claims

/-! A sprite's setPixels in order, as the statements number them (44 R201). -/

section
variable (p : Params) (x y : Nat) (rows : List Byte) {fb : Frame}

/-- The setPixel calls of a sprite are numbered by k below 8 times the rows: row k / 8, column k % 8. -/
theorem spritePixels_eq_map : spritePixels p x y rows = (List.range (8 * rows.length)).map
    (fun k => (spritePixel p x y (k / 8) (k % 8), rowBit (rows.getD (k / 8) 0) (k % 8))) := by
  apply List.ext_getElem
  · simp
  · intro k hk _
    rw [getElem_spritePixels, List.getElem_map, List.getElem_range]
    rfl

/-- Of the first m setPixels, those that turn q over. -/
theorem countP_take_spritePixels (q : Nat) {m : Nat} (hm : m ≤ 8 * rows.length) :
    ((spritePixels p x y rows).take m).countP (fun c => c.2 && c.1 == q) =
      (List.range m).countP (turnsOver p x y rows q) := by
  rw [spritePixels_eq_map, ← List.map_take, List.take_range, Nat.min_eq_left hm, List.countP_map]
  rfl

/-- A pixel after the first m setPixels of a sprite. -/
theorem isSet_blit_take_spritePixels (h : Frame.rising fb = true) (q : Nat) {m : Nat} (hm : m ≤ 8 * rows.length) :
    Frame.isSet (blit ((spritePixels p x y rows).take m) fb).1 q = pixelAfter p x y rows fb q m := by
  rw [isSet_blit _ q h, countP_take_spritePixels p x y rows q hm, pixelAfter]

theorem isSet_setSprite (h : Frame.rising fb = true) (q : Nat) :
    Frame.isSet (setSprite p x y rows fb).1 q = pixelAfter p x y rows fb q (8 * rows.length) := by
  rw [← isSet_blit_take_spritePixels p x y rows h q (Nat.le_refl _), ← length_spritePixels p x y rows,
    List.take_length]
  rfl

/-- A sprite collides exactly when a setPixel with its bit set meets its pixel set, the earlier ones counted. -/
theorem setSprite_collides (h : Frame.rising fb = true) : (setSprite p x y rows fb).2 = true ↔
    ∃ k q : Nat, k < 8 * rows.length ∧ turnsOver p x y rows q k = true ∧ pixelAfter p x y rows fb q k = true := by
  refine (blit_collides (spritePixels p x y rows) fb).trans ⟨?_, ?_⟩
  · rintro ⟨k, hk, hbit, hset⟩
    rw [length_spritePixels] at hk
    rw [getElem_spritePixels] at hbit
    rw [getElem_spritePixels, isSet_blit_take_spritePixels p x y rows h _ (by omega)] at hset
    exact ⟨k, _, hk, Bool.and_eq_true_iff.2 ⟨hbit, beq_self_eq_true _⟩, hset⟩
  · rintro ⟨k, q, hk, hturn, hset⟩
    obtain ⟨hbit, hq⟩ := Bool.and_eq_true_iff.1 hturn
    obtain rfl : spritePixel p x y (k / 8) (k % 8) = q := eq_of_beq hq
    refine ⟨k, by rwa [length_spritePixels], ?_, ?_⟩ <;> rw [getElem_spritePixels]
    · exact hbit
    · rw [isSet_blit_take_spritePixels p x y rows h _ (by omega)]
      exact hset

end

/-! Where no pixel is met twice: a display at least 8 wide and as high as the sprite. -/

section
variable {p : Params} (x y : Nat) {rows : List Byte} (hw : 8 ≤ p.displayW) (hh : rows.length ≤ p.displayH)
include hw hh

/-- On such a display the coordinates of a sprite do not wrap onto each other. -/
theorem spritePixel_inj {r b r' b' : Nat} (hr : r < rows.length) (hb : b < 8) (hr' : r' < rows.length) (hb' : b' < 8)
    (h : spritePixel p x y r b = spritePixel p x y r' b') : r = r' ∧ b = b' := by
  have hwpos : 0 < p.displayW := by omega
  have hdiv (r b : Nat) : spritePixel p x y r b / p.displayW = (y + r) % p.displayH := by
    rw [spritePixel, Nat.mul_comm, Nat.mul_add_div hwpos, Nat.div_eq_of_lt (Nat.mod_lt _ hwpos), Nat.add_zero]
  have hrow : (y + r) % p.displayH = (y + r') % p.displayH := by rw [← hdiv r b, h, hdiv]
  have hcol : (x + b) % p.displayW = (x + b') % p.displayW := by
    rw [spritePixel, spritePixel, hrow] at h
    omega
  exact ⟨(Nat.ModEq.add_left_cancel' y hrow).eq_of_lt_of_lt (by omega) (by omega),
    (Nat.ModEq.add_left_cancel' x hcol).eq_of_lt_of_lt (by omega) (by omega)⟩

/-- The pixel of row r and column b is turned over by setPixel 8 r + b at most, as the row's bit says. -/
theorem turnsOver_spritePixel {r b k : Nat} (hr : r < rows.length) (hb : b < 8) (hk : k < 8 * rows.length) :
    turnsOver p x y rows (spritePixel p x y r b) k = (rows[r].getLsbD (7 - b) && k == 8 * r + b) := by
  by_cases hkr : k = 8 * r + b
  · have hdiv : k / 8 = r := by omega
    have hmod : k % 8 = b := by omega
    rw [turnsOver, hdiv, hmod, List.getD_eq_getElem _ _ hr, beq_self_eq_true, hkr, beq_self_eq_true]
  · have hne : spritePixel p x y (k / 8) (k % 8) ≠ spritePixel p x y r b := fun h => by
      obtain ⟨hdiv, hmod⟩ := spritePixel_inj x y hw hh (by omega) (Nat.mod_lt k (by decide)) hr hb h
      omega
    rw [turnsOver, beq_false_of_ne hne, beq_false_of_ne hkr, Bool.and_false, Bool.and_false]

/-- The pixel of row r and column b is XORed with the row's bit when its own setPixel is reached, and only then. -/
theorem pixelAfter_spritePixel (fb : Frame) {r b m : Nat} (hr : r < rows.length) (hb : b < 8)
    (hm : m ≤ 8 * rows.length) : pixelAfter p x y rows fb (spritePixel p x y r b) m =
      (Frame.isSet fb (spritePixel p x y r b) ^^ (rows[r].getLsbD (7 - b) && decide (8 * r + b < m))) := by
  have hcongr : (List.range m).countP (turnsOver p x y rows (spritePixel p x y r b)) =
      (List.range m).countP (fun k => rows[r].getLsbD (7 - b) && k == 8 * r + b) :=
    List.countP_congr fun k hk => by
      rw [turnsOver_spritePixel x y hw hh hr hb (by have := List.mem_range.1 hk; omega)]
  have hcount : (List.range m).countP (fun k => k == 8 * r + b) = if 8 * r + b < m then 1 else 0 := by
    simpa [List.count] using List.nodup_range.count (a := 8 * r + b) (l := List.range m)
  rw [pixelAfter, hcongr]
  cases rows[r].getLsbD (7 - b)
  · simp
  · simp only [Bool.true_and, hcount]
    split <;> simp [*]

end

/-- A pixel that no setPixel of the sprite names keeps its value. -/
theorem pixelAfter_of_ne {p : Params} {x y : Nat} {rows : List Byte} (fb : Frame) {q : Nat}
    (h : ∀ r b : Nat, r < rows.length → b < 8 → q ≠ spritePixel p x y r b) :
    pixelAfter p x y rows fb q (8 * rows.length) = Frame.isSet fb q := by
  have hzero : (List.range (8 * rows.length)).countP (turnsOver p x y rows q) = 0 := by
    refine List.countP_eq_zero.2 fun k hk hturn => ?_
    have hk := List.mem_range.1 hk
    obtain ⟨-, hq⟩ := Bool.and_eq_true_iff.1 hturn
    exact h (k / 8) (k % 8) (by omega) (Nat.mod_lt k (by decide)) (eq_of_beq hq).symm
  simp [pixelAfter, hzero]

/-- Settles O52: by parity everywhere, and where the coordinates do not wrap onto each other pixel by pixel. -/
theorem spriteIsXoredPixelByPixel : Obligations.SpriteIsXoredPixelByPixel := by
  intro p x y rows fb h _ _
  refine ⟨isSet_setSprite p x y rows h, setSprite_collides p x y rows h,
    fun hw hh => ⟨fun r b hr hb => ?_, fun q hq => ?_, (setSprite_collides p x y rows h).trans ⟨?_, ?_⟩⟩⟩
  · rw [isSet_setSprite p x y rows h, pixelAfter_spritePixel x y hw hh fb hr hb (Nat.le_refl _),
      decide_eq_true (by omega), Bool.and_true]
  · rw [isSet_setSprite p x y rows h, pixelAfter_of_ne fb hq]
  · rintro ⟨k, q, hk, hturn, hset⟩
    have hr : k / 8 < rows.length := by omega
    obtain ⟨hbit, hq⟩ := Bool.and_eq_true_iff.1 hturn
    obtain rfl : spritePixel p x y (k / 8) (k % 8) = q := eq_of_beq hq
    rw [pixelAfter_spritePixel x y hw hh fb hr (Nat.mod_lt k (by decide)) (by omega), decide_eq_false (by omega),
      Bool.and_false, Bool.xor_false] at hset
    rw [List.getD_eq_getElem _ _ hr] at hbit
    exact ⟨k / 8, k % 8, hr, Nat.mod_lt k (by decide), hbit, hset⟩
  · rintro ⟨r, b, hr, hb, hbit, hset⟩
    refine ⟨8 * r + b, spritePixel p x y r b, by omega, ?_, ?_⟩
    · rw [turnsOver_spritePixel x y hw hh hr hb (by omega), hbit, beq_self_eq_true]; rfl
    · rw [pixelAfter_spritePixel x y hw hh fb hr hb (by omega), decide_eq_false (Nat.lt_irrefl _), Bool.and_false,
        Bool.xor_false, hset]

/-! The same drawing twice (44 R209). -/

/-- Two canonical frames with the same pixels are equal. -/
theorem Frame.eq_of_isSet {fb fb' : Frame} (h : Frame.rising fb = true) (h' : Frame.rising fb' = true)
    (hset : ∀ q, Frame.isSet fb q = Frame.isSet fb' q) : fb = fb' :=
  (Frame.rising_iff.1 h).eq_of_mem_iff (Frame.rising_iff.1 h') fun q => by
    simpa [Frame.isSet] using congrArg (· = true) (hset q)

/-- Drawn twice, every pixel is turned over an even number of times. -/
theorem blit_twice (pixels : List (Nat × Bool)) {fb : Frame} (h : Frame.rising fb = true) :
    (blit pixels (blit pixels fb).1).1 = fb := by
  have hrising := blit_rising pixels h
  refine Frame.eq_of_isSet (blit_rising pixels hrising) h fun q => ?_
  rw [isSet_blit pixels q hrising, isSet_blit pixels q h, Bool.xor_assoc, Bool.xor_self, Bool.xor_false]

/-- While nothing collides no pixel is turned off: what was set or drawn is set. -/
theorem isSet_blit_of_not_collides {pixels : List (Nat × Bool)} {fb : Frame} {q : Nat} (h : Frame.rising fb = true)
    (hno : (blit pixels fb).2 = false) (hq : Frame.isSet fb q = true ∨ (q, true) ∈ pixels) :
    Frame.isSet (blit pixels fb).1 q = true := by
  induction pixels generalizing fb with
  | nil => exact hq.resolve_right List.not_mem_nil
  | cons c rest ih =>
    obtain ⟨r, on⟩ := c
    obtain ⟨hfirst, hrest⟩ : (on && Frame.isSet fb r) = false ∧ (blit rest (setPixel r on fb).1).2 = false :=
      Bool.or_eq_false_iff.1 hno
    have hstep := isSet_setPixel r q on h
    refine ih (setPixel_rising r on h) hrest ?_
    by_cases hqr : q = r ∧ on = true
    · obtain ⟨rfl, rfl⟩ := hqr
      have hclear : Frame.isSet fb q = false := hfirst
      exact .inl (by simp [hstep, hclear])
    · rcases hq with hq | hq
      · have hkept : (on && decide (q = r)) = false := by simpa [and_comm] using hqr
        exact .inl (by rw [hstep, hq, hkept]; rfl)
      · rcases List.mem_cons.1 hq with he | hq
        · cases he; exact absurd ⟨rfl, rfl⟩ hqr
        · exact .inr hq

/-- Drawn a second time onto a clear frame, a pixel with its bit set collides: else it would stay set. -/
theorem blit_twice_collides {pixels : List (Nat × Bool)} {q : Nat} (hq : (q, true) ∈ pixels) :
    (blit pixels (blit pixels []).1).2 = true := by
  by_contra hno
  have hset := isSet_blit_of_not_collides (blit_rising pixels (fb := []) rfl) (Bool.eq_false_iff.2 hno) (.inr hq)
  rw [blit_twice pixels (fb := []) rfl] at hset
  cases hset

/-- A sprite row with a bit set names a pixel with its bit set. -/
theorem exists_mem_spritePixels (p : Params) (x y : Nat) {rows : List Byte} {r : Nat} (hr : r < rows.length)
    (hne : rows[r] ≠ 0) : ∃ q, (q, true) ∈ spritePixels p x y rows := by
  obtain ⟨b, hb, hbit⟩ : ∃ b < 8, rows[r].getLsbD b = true := by
    by_contra hnone
    push Not at hnone
    exact hne (BitVec.eq_of_getLsbD_eq fun b hb => by simpa using hnone b hb)
  have hk : 8 * r + (7 - b) < (spritePixels p x y rows).length := by rw [length_spritePixels]; omega
  have hmem := List.getElem_mem hk
  rw [getElem_spritePixels, show (8 * r + (7 - b)) / 8 = r by omega, show (8 * r + (7 - b)) % 8 = 7 - b by omega,
    List.getD_eq_getElem _ _ hr, rowBit, show 7 - (7 - b) = b by omega, hbit] at hmem
  exact ⟨_, hmem⟩

/-! DRW (44 R202). -/

/-- The rows of DRW are the bytes at I, I + 1, … -/
theorem spriteRows_eq (s : State) (n : Nibble) :
    spriteRows s n = (List.range n.toNat).map (fun r => readByte s (s.i.toNat + r)) := by
  apply List.ext_getElem
  · simp [spriteRows]
  · intro k hk _
    simp [spriteRows, getElem_loadBytes]

/-- The range of DRW is in memory, or empty. -/
theorem rangeFault_eq_none_of_nibble {N base : Nat} {n : Nibble} (h : n = 0 ∨ base + n.toNat ≤ N) :
    rangeFault N base n.toNat = none :=
  rangeFault_eq_none.2 (h.imp_left (congrArg BitVec.toNat))

/-- DRW on the reference sink, which answers. -/
theorem exec_drw_of_reference {s : State} {n : Nibble} {c : Bool} (x y : Nibble) (hk : s.params.sink = .reference)
    (ha : (takeSink s).1 = .done c) (hN : n = 0 ∨ s.i.toNat + n.toNat ≤ s.params.memSize) :
    exec (.drw x y n) s = .next (setV regF
      (flagByte (setSprite s.params (getV s x).toNat (getV s y).toNat (spriteRows s n) s.fb).2)
      { s with
        fb := (setSprite s.params (getV s x).toNat (getV s y).toNat (spriteRows s n) s.fb).1
        ports := (takeSink s).2.ports }) :=
  exec_drw_of_sinkDraw_some (rangeFault_eq_none_of_nibble hN) (sinkDraw_of_reference _ _ _ hk ha)

theorem exec_drw_of_external {s : State} {n : Nibble} {c : Bool} (x y : Nibble) (hk : s.params.sink = .external)
    (ha : (takeSink s).1 = .done c) (hN : n = 0 ∨ s.i.toNat + n.toNat ≤ s.params.memSize) :
    exec (.drw x y n) s = .next (setV regF (flagByte c) { s with ports := (takeSink s).2.ports }) :=
  exec_drw_of_sinkDraw_some (rangeFault_eq_none_of_nibble hN) (sinkDraw_of_external _ _ _ hk ha)

/-- A DRW that does not fault had its range in memory and an answer of the sink. -/
theorem of_exec_drw_not_faulted {s t : State} {x y n : Nibble} (h : exec (.drw x y n) s = .next t)
    (ht : t.run ≠ .faulted) :
    (n = 0 ∨ s.i.toNat + n.toNat ≤ s.params.memSize) ∧ ∃ c, (takeSink s).1 = .done c := by
  cases hN : rangeFault s.params.memSize s.i.toNat n.toNat with
  | some a =>
    cases (exec_drw_of_rangeFault hN).symm.trans h
    exact absurd rfl ht
  | none =>
    refine ⟨(rangeFault_eq_none.1 hN).imp_left BitVec.eq_of_toNat_eq, ?_⟩
    cases ha : (takeSink s).1 with
    | done c => exact ⟨c, rfl⟩
    | backendError =>
      obtain ⟨fb, ports, he⟩ := sinkDraw_of_backendError (getV s x).toNat (getV s y).toNat (spriteRows s n) ha
      cases (exec_drw_of_sinkDraw_none hN he).symm.trans h
      exact absurd rfl ht

/-- Settles O50: the sink's three answers. -/
theorem clearTheDisplay : Obligations.ClearTheDisplay := by
  intro s
  refine ⟨rfl, fun c hk ha => ?_, fun ha => ?_⟩
  · exact ⟨_, exec_cls_of_sinkClear_true (sinkClear_of_reference hk ha), fun _ => rfl, sameBut_refl _ _ _ _⟩
  · obtain ⟨fb, ports, he⟩ := sinkClear_of_backendError ha
    exact ⟨_, exec_cls_of_sinkClear_false he, trapped_raise _ _ { s with fb := fb, ports := ports } (by decide)⟩

/-- Settles O51: the range first, then the sink, then VF. -/
theorem drawASprite : Obligations.DrawASprite := by
  intro s x y n
  rw [← spriteRows_eq]
  refine ⟨decodeWord_encode (.drw x y n), fun c hk ha hN => ?_, fun hn hN => ?_, fun ha hN => ?_⟩
  · exact ⟨_, exec_drw_of_reference x y hk ha hN, rfl, getV_setV_self _ _ _, sameBut_setV _ _ _⟩
  · have hn0 : n.toNat ≠ 0 := fun h => hn (BitVec.eq_of_toNat_eq h)
    have hlt := n.isLt
    exact ⟨_, exec_drw_of_rangeFault (rangeFault_eq_some.2 ⟨hn0, hN, rfl⟩),
      trapped_raise _ _ s (max_toNat_lt (Nat.le_of_lt hN) (by omega))⟩
  · obtain ⟨fb, ports, he⟩ := sinkDraw_of_backendError (getV s x).toNat (getV s y).toNat (spriteRows s n) ha
    exact ⟨_, exec_drw_of_sinkDraw_none (rangeFault_eq_none_of_nibble hN) he,
      trapped_raise _ _ { s with fb := fb, ports := ports } (by decide)⟩

/-- Settles O54: the external sink's answer is VF, and nothing but the ports moves besides. -/
theorem externalSinkAnswersTheCollision : Obligations.ExternalSinkAnswersTheCollision := fun _ x y _ _ hk ha hN =>
  ⟨⟨_, exec_drw_of_external x y hk ha hN, getV_setV_self _ _ _, sameBut_setV _ _ _⟩,
    ⟨_, exec_cls_of_sinkClear_true (sinkClear_of_external hk ha), sameBut_refl _ _ _ _⟩⟩

/-- A DRW on the reference sink that does not fault: the frame and VF are setSprite's, the rest is as before. -/
theorem exec_drw_of_reference_not_faulted {s t : State} {x y n : Nibble} (hk : s.params.sink = .reference)
    (h : exec (.drw x y n) s = .next t) (ht : t.run ≠ .faulted) :
    t.fb = (setSprite s.params (getV s x).toNat (getV s y).toNat (spriteRows s n) s.fb).1 ∧
    getV t 0xF = flagByte (setSprite s.params (getV s x).toNat (getV s y).toNat (spriteRows s n) s.fb).2 ∧
    SameBut [0xF] 0 0 { s with fb := t.fb, ports := t.ports } t := by
  obtain ⟨hN, c, ha⟩ := of_exec_drw_not_faulted h ht
  cases (exec_drw_of_reference x y hk ha hN).symm.trans h
  exact ⟨rfl, getV_setV_self _ _ _, sameBut_setV _ _ _⟩

/-- Settles O53: x and y are not F, so that the second draw is the first drawn again. -/
theorem drawingTwiceErasesAndCollides : Obligations.DrawingTwiceErasesAndCollides := by
  intro s t u x y n hk hrising hx hy ht htrun hu hurun
  obtain ⟨hfb, -, hframe⟩ := exec_drw_of_reference_not_faulted hk ht htrun
  have hparams : t.params = s.params := hframe.params
  have hreg {r : Nibble} (hr : r ≠ 0xF) : getV t r = getV s r := hframe.v r (mt List.mem_singleton.1 hr)
  have hrows : spriteRows t n = spriteRows s n := by
    rw [spriteRows_eq, spriteRows_eq, hframe.i]
    exact List.map_congr_left fun r _ => hframe.mem _ (.inr (Nat.zero_le _))
  obtain ⟨hfb', hvf, -⟩ := exec_drw_of_reference_not_faulted (hparams ▸ hk) hu hurun
  rw [hparams, hreg hx, hreg hy, hrows, hfb] at hfb' hvf
  refine ⟨hfb'.trans (blit_twice _ hrising), fun hclear ⟨k, hkn, hne⟩ => ?_⟩
  have hlen : k < (spriteRows s n).length := by rwa [spriteRows, length_loadBytes]
  have hrow : (spriteRows s n)[k] ≠ 0 := by simpa only [spriteRows, getElem_loadBytes] using hne
  obtain ⟨q, hq⟩ := exists_mem_spritePixels s.params (getV s x).toNat (getV s y).toNat hlen hrow
  rw [hvf, hclear, setSprite, setSprite, blit_twice_collides hq]
  rfl

end Sys2Proof.Machine

/-! PROOFS. Keys (spec 44_io.md section 4, 60_exceptions.md section 9): the key skips (O55), Fx0A and its wait (O56,
O57), and the driver's calls while it waits (O58). -/

namespace Sys2Proof.Machine

open Sys2Proof.Claims

/-! The key skips (44 R204, R205), by the port's answer; `want` is the answer that skips. -/

section
variable {s : State} {key : Byte} (i : Instr) (want : Bool)

theorem keySkip_frame_of_held {down : Bool} (h : key.toNat ≤ 15) (ha : (takeKeyDown s).1 = .held down) :
    (keySkip i key want s).pc = (if down == want then s.pc + 2 else s.pc) ∧
      SameBut [] 0 0 { s with pc := (keySkip i key want s).pc, ports := (takeKeyDown s).2.ports }
        (keySkip i key want s) := by
  rw [keySkip_of_held i want h ha]
  exact ⟨skipIf_pc _ _, sameBut_skipIf (down == want) { s with ports := (takeKeyDown s).2.ports }⟩

theorem trapped_keySkip_of_lt (h : 15 < key.toNat) :
    Trapped .keyOutOfRange i key.toNat s (keySkip i key want s) := by
  have hlt := key.isLt
  rw [keySkip_of_lt i want h]
  exact trapped_raise _ _ s (by omega)

theorem trapped_keySkip_of_backendError (h : key.toNat ≤ 15) (ha : (takeKeyDown s).1 = .backendError) :
    Trapped .backendError i 0 { s with ports := (keySkip i key want s).ports } (keySkip i key want s) := by
  rw [keySkip_of_backendError i want h ha]
  exact trapped_raise _ _ { s with ports := (takeKeyDown s).2.ports } (by decide)

end

/-- Settles O55: both skips are `keySkip`, Ex9E with the answer held and ExA1 with the answer not held. -/
theorem keySkips : Obligations.KeySkips := by
  intro s x
  refine ⟨decodeWord_encode (.skp x), decodeWord_encode (.sknp x), fun d hkey ha => ?_,
    fun hkey => ⟨⟨_, rfl, trapped_keySkip_of_lt _ _ hkey⟩, ⟨_, rfl, trapped_keySkip_of_lt _ _ hkey⟩⟩,
    fun hkey ha => ⟨⟨_, rfl, trapped_keySkip_of_backendError _ _ hkey ha⟩,
      ⟨_, rfl, trapped_keySkip_of_backendError _ _ hkey ha⟩⟩⟩
  obtain ⟨hpc, hframe⟩ := keySkip_frame_of_held (.skp x) true hkey ha
  obtain ⟨hpc', hframe'⟩ := keySkip_frame_of_held (.sknp x) false hkey ha
  exact ⟨⟨_, rfl, hpc.trans (by cases d <;> rfl), hframe⟩, ⟨_, rfl, hpc'.trans (by cases d <;> rfl), hframe'⟩⟩

/-! The end of a wait (44 R206). -/

theorem toNat_getV_endWait (k : Nibble) (s : State) : (getV (endWait k s) s.waitX).toNat = k.toNat :=
  (congrArg BitVec.toNat (getV_setV_self s.waitX _ s)).trans (BitVec.toNat_setWidth_of_le (by decide))

theorem sameBut_endWait (k : Nibble) (s : State) :
    SameBut [s.waitX] 0 0 { s with run := .ready, ret := .ok } (endWait k s) :=
  { sameBut_setV s.waitX (k.setWidth 8) { s with run := .ready, ret := .ok } with }

/-- Settles O56: the three answers of the Key Source to the look that opening the wait takes. -/
theorem waitForAKey : Obligations.WaitForAKey := by
  intro s x
  obtain ⟨hanswer, hports⟩ := takeKeyWait_enterWait (s := s) x
  refine ⟨decodeWord_encode (.ldVxK x), fun k ha => ?_, fun ha => ?_, fun ha => ?_⟩
  · have he := waitOnce_of_pressed (hanswer.trans ha)
    rw [hports] at he
    exact ⟨_, congrArg Host.Outcome.next he, toNat_getV_endWait k _, rfl, rfl,
      sameBut_endWait k { enterWait x s with ports := (takeKeyWait s).2.ports }⟩
  · have he := waitOnce_of_noKeyYet (hanswer.trans ha)
    rw [hports] at he
    exact ⟨_, congrArg Host.Outcome.next he, rfl, rfl, rfl, rfl, sameBut_refl _ _ _ _⟩
  · have he := waitOnce_of_backendError (hanswer.trans ha)
    rw [hports] at he
    exact ⟨_, congrArg Host.Outcome.next he, rfl, rfl, rfl, rfl, rfl, rfl, rfl, sameBut_refl _ _ _ _⟩

/-- Settles O57: the three answers of the Key Source to a look at the open wait. -/
theorem theOpenWaitGoesOn : Obligations.TheOpenWaitGoesOn := by
  intro s hr
  rw [driverCall_keySource_of_waitKey hr]
  refine ⟨fun k ha => ?_, fun ha => ?_, fun ha => ?_⟩
  · exact ⟨_, congrArg _ (waitOnce_of_pressed ha), toNat_getV_endWait k _, rfl, rfl,
      sameBut_endWait k { s with ports := (takeKeyWait s).2.ports }⟩
  · exact ⟨_, congrArg _ (waitOnce_of_noKeyYet ha), sameBut_refl _ _ _ _⟩
  · exact ⟨_, congrArg _ (waitOnce_of_backendError ha), rfl, rfl, rfl, rfl, rfl, rfl, sameBut_refl _ _ _ _⟩

/-- Settles O58: the refusals are by RUN, the other calls do not look at it. -/
theorem driverCallsDuringAWait : Obligations.DriverCallsDuringAWait := fun s hr =>
  ⟨if_pos hr, fun _ _ => if_pos hr, rfl, ⟨_, rfl, hr, rfl, rfl, rfl, toNat_decrement s.dt⟩,
    ⟨_, rfl, rfl, getV_construct s.params⟩⟩

end Sys2Proof.Machine
